-- ==== Sys2Proof/Word.lean ====
section
/-! DEFINITION. The word types of the machine: a register value, a data-memory cell and the PC are 32 bits
(spec/00_scope.md R7, R11); a register number and a shift amount are raw 5-bit fields (spec/30_encoding.md R77). -/

namespace Sys2Proof

/-- A 32-bit two's-complement value: register, memory cell or PC (R7, R11). -/
abbrev Word := BitVec 32

/-- A register number, the raw 5-bit field, `0..31` (R77). -/
abbrev RegIdx := BitVec 5

/-- A shift amount, the raw unsigned 5-bit field, `0..31` (R77, R140). -/
abbrev ShAmt := BitVec 5

end Sys2Proof
end

