-- ==== Sys2Proof/Syntax.lean ====
section
/-! DEFINITION. The instructions: one constructor of `Instr` per row of spec/opcode_table.json (spec/00_scope.md R2,
spec/30_encoding.md R78), with the operand slots of the row's shape (R80) in the row's assembly order, but for LW and SW,
whose operands are given as `rt rs imm`. `Kind`, `Format` and `Slots` are the words in which the spec describes a decoded
instruction: a kind and six slots. -/

namespace Sys2Proof

/-- The three bit layouts (R71, R72, R73). -/
inductive Format where
  | r
  | i
  | j
  deriving DecidableEq, Repr

/-- The closed enumeration of twenty kinds, in the order of the spec's table (R2, R78). -/
inductive Kind where
  | add | sub | and | or | xor | sll | srl | sra | jr
  | addi | andi | ori | xori | lw | sw | beq | bne | lui | j | jal
  deriving DecidableEq, Repr

/-- The six operand slots of a decoded instruction (R80). The slots `immediate` and `address` are 32-bit values, which the
decoder fills by sign extension (R75, R76). -/
structure Slots where
  rs : RegIdx
  rt : RegIdx
  rd : RegIdx
  sa : ShAmt
  immediate : Word
  address : Word
  deriving DecidableEq, Repr

/-- A decoded instruction: the constructor is the kind, the arguments are the slots of its shape, every other slot being 0
(R80). `imm` and `addr` are the 32-bit slots, not the encoded fields. `jrFallback` is the table's row JR.FALLBACK: a word of
opcode 0 with an unknown function code (R86, R176); its kind is JR. -/
inductive Instr where
  | add (rd rs rt : RegIdx)
  | sub (rd rs rt : RegIdx)
  | and (rd rs rt : RegIdx)
  | or (rd rs rt : RegIdx)
  | xor (rd rs rt : RegIdx)
  | sll (rd rt : RegIdx) (sa : ShAmt)
  | srl (rd rt : RegIdx) (sa : ShAmt)
  | sra (rd rt : RegIdx) (sa : ShAmt)
  | jr (rs : RegIdx)
  | addi (rt rs : RegIdx) (imm : Word)
  | andi (rt rs : RegIdx) (imm : Word)
  | ori (rt rs : RegIdx) (imm : Word)
  | xori (rt rs : RegIdx) (imm : Word)
  | lw (rt rs : RegIdx) (imm : Word)
  | sw (rt rs : RegIdx) (imm : Word)
  | beq (rs rt : RegIdx) (imm : Word)
  | bne (rs rt : RegIdx) (imm : Word)
  | lui (rt : RegIdx) (imm : Word)
  | j (addr : Word)
  | jal (addr : Word)
  | jrFallback (rs : RegIdx)
  deriving DecidableEq, Repr

end Sys2Proof
end

