-- ==== Sys2Proof/Config.lean ====
section
/-! DEFINITION. What the implementation fixes. The parameters of spec/00_scope.md R7's second table, each at the default the
spec takes (spec/92_eei_decisions.md), the free values of the two points the spec leaves at any value
(spec/93_implementation_defined.md U10, U11), and those of the error payloads it names without a text (spec/60_exceptions.md
R190). -/

namespace Sys2Proof

/-- The two readings of the immediate operand of ANDI, ORI and XORI (spec/42_alu_immediate.md R152). -/
inductive LogicImmExt where
  | slot
  | zero
  deriving DecidableEq, Repr

/-- The two readings of the division in the formula of J (spec/44_control_transfer.md R173). -/
inductive JDiv where
  | signed
  | unsigned
  deriving DecidableEq, Repr

/-- REG_RESET: the value of a register at reset. DESIGN CHOICE (the spec's D1), unsafe: log entry 1. -/
def Config.regReset (_ : RegIdx) : Word := 0#32

/-- KILL_RESET: the kill input at reset. DESIGN CHOICE (the spec's D10), unsafe: log entry 3. -/
def Config.killReset : Bool := false

/-- LOGIC_IMM_EXT. DESIGN CHOICE (the spec's D3), unsafe: log entry 4. -/
def Config.logicImmExt : LogicImmExt := .slot

/-- OPC0_FALLBACK: the kind of an opcode-0 word with an unknown function code. DESIGN CHOICE (the spec's D4), unsafe: log
entry 5. -/
def Config.opc0Fallback : Kind := .jr

/-- J_DIV. DESIGN CHOICE (the spec's D5), unsafe: log entry 6. -/
def Config.jDiv : JDiv := .signed

/-- Free value (U11, spec/10_state.md R35): whether the sequencer sees `kill` at a boundary, applied to the number of
boundaries that have passed with `kill` set and unseen. No value of it can be proved. Log entry 9. -/
opaque Config.killSeen : Nat → Bool

/-- Free value (U11, R35 "a bounded number of steps"): the number of boundaries that may pass at most with `kill` set and
unseen. Log entry 9. -/
opaque Config.killBound : Nat

/-- Free value (U10, spec/60_exceptions.md R198 (d), (e)): at a boundary where `kill` is seen and the PC test would stop the
run too, whether the status is `Killed`. Applied as `killSeen` is. Log entry 10. -/
opaque Config.killWins : Nat → Bool

/-- Free value (spec/30_encoding.md R111, spec/60_exceptions.md R190): the message of `InvalidArgument`, of which the spec gives
no text, on the kind of the mnemonic, the texts of the operands and the line. Log entry 25. -/
opaque Config.invalidArgumentMessage : Kind → List (List Char) → Nat → List Char

/-- Free value (R111, R190 "`Syntax(msg, line?, col?)`"): the column that a `Syntax` error carries, or that it carries none, on
the text of the line and its number. Log entry 25. -/
opaque Config.syntaxColumn : List Char → Nat → Option Nat

end Sys2Proof
end

