-- ==== Sys2Proof/WellFormed.lean ====
section
/-! DEFINITION. Which instructions are well formed: the slot `immediate` holds a value of the 16-bit field's signed range and
the slot `address` one of the 26-bit field's (spec/30_encoding.md R75, R76, R91). Register numbers and shift amounts are
5-bit fields by type, and every value of them is legal (R77). -/

namespace Sys2Proof

/-- `-32768..32767`, the values the decoder can put in the slot `immediate` (R75). -/
def immInRange (imm : Word) : Bool :=
  decide (-32768 ≤ imm.toInt ∧ imm.toInt ≤ 32767)

/-- `-2^25..2^25-1`, the values the decoder can put in the slot `address` (R76). -/
def addrInRange (addr : Word) : Bool :=
  decide (-33554432 ≤ addr.toInt ∧ addr.toInt ≤ 33554431)

/-- A well-formed instruction: one the decoder can answer. -/
def Instr.wf : Instr → Bool
  | .add _ _ _ | .sub _ _ _ | .and _ _ _ | .or _ _ _ | .xor _ _ _ => true
  | .sll _ _ _ | .srl _ _ _ | .sra _ _ _ => true
  | .jr _ | .jrFallback _ => true
  | .addi _ _ imm | .andi _ _ imm | .ori _ _ imm | .xori _ _ imm => immInRange imm
  | .lw _ _ imm | .sw _ _ imm => immInRange imm
  | .beq _ _ imm | .bne _ _ imm => immInRange imm
  | .lui _ imm => immInRange imm
  | .j addr | .jal addr => addrInRange addr

end Sys2Proof
end

