-- ==== Sys2Proof/Decode.lean ====
section
/-! DEFINITION. The decoder and the encoder (spec/30_encoding.md sections 1 to 7): field extraction, the opcode map, the
choice of the kind, the filling of the slots, the fallback of opcode 0, and the packing of a kind and its slots into a
32-bit word. -/

namespace Sys2Proof

/-! ### Extension (spec/00_scope.md R12) -/

/-- `sext_16(v)`: the low 16 bits, bit 15 copied upwards. -/
def sext16 (v : Word) : Word := (v.extractLsb' 0 16).signExtend 32

/-- `sext_26(v)`: the low 26 bits, bit 25 copied upwards. -/
def sext26 (v : Word) : Word := (v.extractLsb' 0 26).signExtend 32

/-- `zext_16(v)`: the low 16 bits, upper bits 0. -/
def zext16 (v : Word) : Word := (v.extractLsb' 0 16).setWidth 32

/-! ### Field extraction (R74; bit positions R71 to R73) -/

/-- `opcode = w[31:26]`. -/
def fieldOpcode (w : Word) : BitVec 6 := w.extractLsb' 26 6

/-- `rs = w[25:21]`. -/
def fieldRs (w : Word) : RegIdx := w.extractLsb' 21 5

/-- `rt = w[20:16]`. -/
def fieldRt (w : Word) : RegIdx := w.extractLsb' 16 5

/-- `rd = w[15:11]`. -/
def fieldRd (w : Word) : RegIdx := w.extractLsb' 11 5

/-- `sa = w[10:6]`. -/
def fieldSa (w : Word) : ShAmt := w.extractLsb' 6 5

/-- `funct = w[5:0]`. -/
def fieldFunct (w : Word) : BitVec 6 := w.extractLsb' 0 6

/-- `imm = sext_16(w[15:0])` (R75). -/
def fieldImm (w : Word) : Word := sext16 w

/-- `addr = sext_26(w[25:0])` (R76). -/
def fieldAddr (w : Word) : Word := sext26 w

/-! ### The opcode map (R78) -/

/-- The twenty kinds in the order of the spec's table. -/
def Kind.all : List Kind :=
  [.add, .sub, .and, .or, .xor, .sll, .srl, .sra, .jr,
   .addi, .andi, .ori, .xori, .lw, .sw, .beq, .bne, .lui, .j, .jal]

/-- The column "format" of R78. -/
def Kind.format : Kind → Format
  | .add | .sub | .and | .or | .xor | .sll | .srl | .sra | .jr => .r
  | .addi | .andi | .ori | .xori | .lw | .sw | .beq | .bne | .lui => .i
  | .j | .jal => .j

/-- The column "opcode" of R78. -/
def Kind.opcode : Kind → BitVec 6
  | .add | .sub | .and | .or | .xor | .sll | .srl | .sra | .jr => 0#6
  | .addi => 8#6
  | .andi => 12#6
  | .ori => 13#6
  | .xori => 14#6
  | .lw => 35#6
  | .sw => 43#6
  | .beq => 4#6
  | .bne => 5#6
  | .lui => 15#6
  | .j => 2#6
  | .jal => 3#6

/-- The column "funct" of R78, for the R-format kinds; 0 for the kinds that have none (their format has no such field). -/
def Kind.funct : Kind → BitVec 6
  | .add => 32#6
  | .sub => 34#6
  | .and => 36#6
  | .or => 37#6
  | .xor => 38#6
  | .sll => 0#6
  | .srl => 2#6
  | .sra => 3#6
  | .jr => 8#6
  | .addi | .andi | .ori | .xori | .lw | .sw | .beq | .bne | .lui | .j | .jal => 0#6

/-- The column "match" of R78, written out from the table. -/
def Kind.pattern : Kind → Word
  | .add => 0x00000020#32
  | .sub => 0x00000022#32
  | .and => 0x00000024#32
  | .or => 0x00000025#32
  | .xor => 0x00000026#32
  | .sll => 0x00000000#32
  | .srl => 0x00000002#32
  | .sra => 0x00000003#32
  | .jr => 0x00000008#32
  | .addi => 0x20000000#32
  | .andi => 0x30000000#32
  | .ori => 0x34000000#32
  | .xori => 0x38000000#32
  | .lw => 0x8C000000#32
  | .sw => 0xAC000000#32
  | .beq => 0x10000000#32
  | .bne => 0x14000000#32
  | .lui => 0x3C000000#32
  | .j => 0x08000000#32
  | .jal => 0x0C000000#32

/-- The column "mask" of R78. -/
def Kind.mask : Kind → Word
  | .add | .sub | .and | .or | .xor | .sll | .srl | .sra | .jr => 0xFC00003F#32
  | .addi | .andi | .ori | .xori | .lw | .sw | .beq | .bne | .lui | .j | .jal => 0xFC000000#32

/-! ### Decoding (R79 to R82, R86) -/

/-- The verdict `InvalidInstruction` of the decoder on a word (R82). -/
inductive DecodeError where
  | invalidInstruction (w : Word)
  deriving DecidableEq, Repr

/-- The function codes under opcode 0 (R79); `none` for the 55 unassigned ones. -/
def kindOfFunct (funct : BitVec 6) : Option Kind :=
  match funct.toNat with
  | 32 => some .add
  | 34 => some .sub
  | 36 => some .and
  | 37 => some .or
  | 38 => some .xor
  | 0 => some .sll
  | 2 => some .srl
  | 3 => some .sra
  | 8 => some .jr
  | _ => none

/-- The opcodes other than 0 (R79); `none` for opcode 0 and for the 52 unassigned ones. -/
def kindOfOpcode (opcode : BitVec 6) : Option Kind :=
  match opcode.toNat with
  | 8 => some .addi
  | 12 => some .andi
  | 13 => some .ori
  | 14 => some .xori
  | 35 => some .lw
  | 43 => some .sw
  | 4 => some .beq
  | 5 => some .bne
  | 15 => some .lui
  | 2 => some .j
  | 3 => some .jal
  | _ => none

/-- The kind a word is of by an assigned opcode and, under opcode 0, an assigned function code (R78, R79). -/
def assignedKind (w : Word) : Option Kind :=
  if fieldOpcode w = 0#6 then kindOfFunct (fieldFunct w) else kindOfOpcode (fieldOpcode w)

/-- The slots of the kind's shape, filled from the fields (R80). Bits outside the shape reach no slot (R81). -/
def fillSlots (k : Kind) (w : Word) : Instr :=
  match k with
  | .add => .add (fieldRd w) (fieldRs w) (fieldRt w)
  | .sub => .sub (fieldRd w) (fieldRs w) (fieldRt w)
  | .and => .and (fieldRd w) (fieldRs w) (fieldRt w)
  | .or => .or (fieldRd w) (fieldRs w) (fieldRt w)
  | .xor => .xor (fieldRd w) (fieldRs w) (fieldRt w)
  | .sll => .sll (fieldRd w) (fieldRt w) (fieldSa w)
  | .srl => .srl (fieldRd w) (fieldRt w) (fieldSa w)
  | .sra => .sra (fieldRd w) (fieldRt w) (fieldSa w)
  | .jr => .jr (fieldRs w)
  | .addi => .addi (fieldRt w) (fieldRs w) (fieldImm w)
  | .andi => .andi (fieldRt w) (fieldRs w) (fieldImm w)
  | .ori => .ori (fieldRt w) (fieldRs w) (fieldImm w)
  | .xori => .xori (fieldRt w) (fieldRs w) (fieldImm w)
  | .lw => .lw (fieldRt w) (fieldRs w) (fieldImm w)
  | .sw => .sw (fieldRt w) (fieldRs w) (fieldImm w)
  | .beq => .beq (fieldRs w) (fieldRt w) (fieldImm w)
  | .bne => .bne (fieldRs w) (fieldRt w) (fieldImm w)
  | .lui => .lui (fieldRt w) (fieldImm w)
  | .j => .j (fieldAddr w)
  | .jal => .jal (fieldAddr w)

/-- The opcode-0 fallback (R86): the kind is the parameter OPC0_FALLBACK. At its default, JR, the instruction is the table's
row JR.FALLBACK. -/
def fallback (w : Word) : Instr :=
  match Config.opc0Fallback with
  | .jr => .jrFallback (fieldRs w)
  | k => fillSlots k w

/-- The decoder (R79): total, on every 32-bit word either an instruction or `InvalidInstruction`. -/
def decode (w : Word) : Except DecodeError Instr :=
  match assignedKind w with
  | some k => .ok (fillSlots k w)
  | none => if fieldOpcode w = 0#6 then .ok (fallback w) else .error (.invalidInstruction w)

/-- The instructions of a list of words, in order; the first invalid word refuses them all and is answered with its position
(R84, R192, spec/91_not_in_source.md N18). -/
def decodeAll : Nat → List Word → Except (Word × Nat) (List Instr)
  | _, [] => .ok []
  | n, w :: ws =>
    match decode w with
    | .error _ => .error (w, n)
    | .ok i =>
      match decodeAll (n + 1) ws with
      | .error e => .error e
      | .ok is => .ok (i :: is)

/-- What the decoder reads from an instruction whose bits are `w`, numbered as spec/opcode_table.json numbers them. An
instruction is one 32-bit word (R70), so bit `k` of `w` is bit `k` of the word and the bits from `nbits` on are 0. -/
def decodeTableWord (nbits w : Nat) : Option Instr :=
  match decode (BitVec.ofNat 32 (w % 2 ^ nbits)) with
  | .ok i => some i
  | .error _ => none

/-! ### Encoding (R88, R89) -/

/-- The kind of a decoded instruction; the fallback's is JR (R86). -/
def Instr.kind : Instr → Kind
  | .add _ _ _ => .add
  | .sub _ _ _ => .sub
  | .and _ _ _ => .and
  | .or _ _ _ => .or
  | .xor _ _ _ => .xor
  | .sll _ _ _ => .sll
  | .srl _ _ _ => .srl
  | .sra _ _ _ => .sra
  | .jr _ => .jr
  | .addi _ _ _ => .addi
  | .andi _ _ _ => .andi
  | .ori _ _ _ => .ori
  | .xori _ _ _ => .xori
  | .lw _ _ _ => .lw
  | .sw _ _ _ => .sw
  | .beq _ _ _ => .beq
  | .bne _ _ _ => .bne
  | .lui _ _ => .lui
  | .j _ => .j
  | .jal _ => .jal
  | .jrFallback _ => .jr

/-- All six slots 0: the value of every slot outside a kind's shape (R80). -/
def emptySlots : Slots := { rs := 0#5, rt := 0#5, rd := 0#5, sa := 0#5, immediate := 0#32, address := 0#32 }

/-- The six slots of a decoded instruction, those outside its shape 0 (R80). -/
def Instr.slots : Instr → Slots
  | .add rd rs rt | .sub rd rs rt | .and rd rs rt | .or rd rs rt | .xor rd rs rt =>
    { emptySlots with rs := rs, rt := rt, rd := rd }
  | .sll rd rt sa | .srl rd rt sa | .sra rd rt sa => { emptySlots with rt := rt, rd := rd, sa := sa }
  | .jr rs | .jrFallback rs => { emptySlots with rs := rs }
  | .addi rt rs imm | .andi rt rs imm | .ori rt rs imm | .xori rt rs imm =>
    { emptySlots with rs := rs, rt := rt, immediate := imm }
  | .lw rt rs imm | .sw rt rs imm => { emptySlots with rs := rs, rt := rt, immediate := imm }
  | .beq rs rt imm | .bne rs rt imm => { emptySlots with rs := rs, rt := rt, immediate := imm }
  | .lui rt imm => { emptySlots with rt := rt, immediate := imm }
  | .j addr | .jal addr => { emptySlots with address := addr }

/-- A field placed at bit `lo` of a word. -/
def place (lo : Nat) {n : Nat} (v : BitVec n) : Word := v.setWidth 32 <<< lo

/-- The encoder on a kind and its slots (R88): the fields of the kind's format at the positions of R71 to R73, each the low
bits of its slot. -/
def encodeSlots (k : Kind) (s : Slots) : Word :=
  match k.format with
  | .r =>
    place 26 k.opcode ||| place 21 s.rs ||| place 16 s.rt ||| place 11 s.rd ||| place 6 s.sa ||| place 0 k.funct
  | .i => place 26 k.opcode ||| place 21 s.rs ||| place 16 s.rt ||| (s.immediate &&& 0xFFFF#32)
  | .j => place 26 k.opcode ||| (s.address &&& 0x3FFFFFF#32)

/-- The word of an instruction. A fallback encodes as the canonical JR word (R86). -/
def encode (i : Instr) : Word := encodeSlots i.kind i.slots

/-- The instruction read back from the encoder's word (R86, R91): the immediate and address slots reduced to their fields'
ranges, the fallback turned into JR. -/
def Instr.canonical : Instr → Instr
  | .addi rt rs imm => .addi rt rs (sext16 imm)
  | .andi rt rs imm => .andi rt rs (sext16 imm)
  | .ori rt rs imm => .ori rt rs (sext16 imm)
  | .xori rt rs imm => .xori rt rs (sext16 imm)
  | .lw rt rs imm => .lw rt rs (sext16 imm)
  | .sw rt rs imm => .sw rt rs (sext16 imm)
  | .beq rs rt imm => .beq rs rt (sext16 imm)
  | .bne rs rt imm => .bne rs rt (sext16 imm)
  | .lui rt imm => .lui rt (sext16 imm)
  | .j addr => .j (sext26 addr)
  | .jal addr => .jal (sext26 addr)
  | .jrFallback rs => .jr rs
  | .add rd rs rt => .add rd rs rt
  | .sub rd rs rt => .sub rd rs rt
  | .and rd rs rt => .and rd rs rt
  | .or rd rs rt => .or rd rs rt
  | .xor rd rs rt => .xor rd rs rt
  | .sll rd rt sa => .sll rd rt sa
  | .srl rd rt sa => .srl rd rt sa
  | .sra rd rt sa => .sra rd rt sa
  | .jr rs => .jr rs

/-- The bits of a word that a kind neither matches nor uses (R81). -/
def Kind.ignored : Kind → Word
  | .add | .sub | .and | .or | .xor => 0x000007C0#32
  | .sll | .srl | .sra => 0x03E00000#32
  | .jr => 0x001FFFC0#32
  | .lui => 0x03E00000#32
  | .addi | .andi | .ori | .xori | .lw | .sw | .beq | .bne | .j | .jal => 0#32

end Sys2Proof
end

