-- ==== Sys2Proof/Machine/Text.lean ====
section
/-! DEFINITION. Text as lists of characters, numerals, the hexadecimal form of a word, and the error kinds of the source
(spec/30_encoding.md R83, R90, R101, spec/60_exceptions.md R190). The surrounding software of spec/00_scope.md R5. -/

namespace Sys2Proof.Machine

/-- A text. -/
abbrev Text := List Char

/-! ### The error kinds (R190) -/

/-- The messages of the error kind `Syntax` (R96, R97, R110). -/
inductive SyntaxMessage where
  | noArguments
  | labelNeedsColon
  | labelIsInteger
  | invalidMnemonic
  | invalidFormat
  deriving DecidableEq, Repr

/-- The source's words for a message. -/
def SyntaxMessage.words : SyntaxMessage → String
  | .noArguments => "No arguments given (maybe you're missing head tab/space?)"
  | .labelNeedsColon => "Label must be followed by ':'"
  | .labelIsInteger => "Label cannot be an integer"
  | .invalidMnemonic => "Invalid mnemonic"
  | .invalidFormat => "Invalid format"

/-- Points of the assembler of which the spec says that the source does not state them (spec/93_implementation_defined.md
U16): a second definition of a label, and a branch or jump operand in `0x` form. -/
inductive Unstated where
  | duplicateLabel
  | prefixedTarget
  deriving DecidableEq, Repr

/-- The error kinds of the assembler and the image parser with their payloads (R111, R190): `Syntax(msg, line?, col?)`,
`InvalidArgument(msg, line)`, `InvalidInstruction(hex, line)`, `LabelNotFound(label, line)`. Lines are counted from 1 (log entry
18). `notStated` is the model's own: it stops, by name, where the spec says that nothing is stated (log entry 21). -/
inductive SourceError where
  | badSyntax (msg : SyntaxMessage) (line col : Option Nat)
  | invalidArgument (msg : Text) (line : Nat)
  | invalidInstruction (hex : Text) (line : Nat)
  | labelNotFound (label : Text) (line : Nat)
  | notStated (point : Unstated) (line : Nat)
  deriving DecidableEq, Repr

/-- `Syntax` on a line of the source (R190 "all carrying source location when applicable"): its line, and its column if it
carries one (log entry 25). -/
def syntaxError (msg : SyntaxMessage) (text : Text) (line : Nat) : SourceError :=
  .badSyntax msg (some line) (Config.syntaxColumn text line)

/-- `InvalidArgument` on the operands of a mnemonic, with its message (R190; log entry 25). -/
def argumentError (k : Kind) (ops : List Text) (line : Nat) : SourceError :=
  .invalidArgument (Config.invalidArgumentMessage k ops line) line

/-! ### Character classes -/

/-- A space or a tab: what separates the tokens of a line (R96). -/
def isBlankChar (c : Char) : Bool := c == ' ' || c == '\t'

/-- The class `\s` of the image pattern (R110). -/
def isSpaceChar (c : Char) : Bool := isBlankChar c || c == '\n' || c == '\r' || c.toNat == 11 || c.toNat == 12

/-- The class `\d`. -/
def isDigitChar (c : Char) : Bool := decide (48 ≤ c.toNat ∧ c.toNat ≤ 57)

/-- The class `[a-zA-Z0-9]` of the image pattern (R110). -/
def isAlnumChar (c : Char) : Bool :=
  isDigitChar c || decide (65 ≤ c.toNat ∧ c.toNat ≤ 90) || decide (97 ≤ c.toNat ∧ c.toNat ≤ 122)

/-- A letter in lower case. -/
def toLowerChar (c : Char) : Char :=
  if 65 ≤ c.toNat ∧ c.toNat ≤ 90 then Char.ofNat (c.toNat + 32) else c

/-! ### Splitting -/

/-- The pieces of a text between the occurrences of `sep`. -/
def splitAt (sep : Char) : Text → List Text
  | [] => [[]]
  | c :: cs =>
    if c = sep then [] :: splitAt sep cs
    else
      match splitAt sep cs with
      | [] => [[c]]
      | t :: ts => (c :: t) :: ts

/-- A text without the white space at its start. -/
def trimStart (t : Text) : Text := t.dropWhile isSpaceChar

/-- A text without the white space at its end. -/
def trimEnd (t : Text) : Text := (t.reverse.dropWhile isSpaceChar).reverse

/-! ### Numerals -/

/-- The value of a hexadecimal digit of either case (decision D16); `none` for any other character. -/
def hexValue (c : Char) : Option Nat :=
  if isDigitChar c then some (c.toNat - 48)
  else if 97 ≤ c.toNat ∧ c.toNat ≤ 102 then some (c.toNat - 87)
  else if 65 ≤ c.toNat ∧ c.toNat ≤ 70 then some (c.toNat - 55)
  else none

/-- The value of a numeral of base `base`, continuing from `acc`; `none` if a character is no digit of that base. -/
def numeralFrom (base : Nat) : Nat → Text → Option Nat
  | acc, [] => some acc
  | acc, c :: cs =>
    match hexValue c with
    | some d => if d < base then numeralFrom base (acc * base + d) cs else none
    | none => none

/-- The value of a non-empty numeral of base `base`. -/
def numeral (base : Nat) (t : Text) : Option Nat := if t = [] then none else numeralFrom base 0 t

/-- The lower-case hexadecimal digits in order. -/
def lowerDigits : List Char := ['0', '1', '2', '3', '4', '5', '6', '7', '8', '9', 'a', 'b', 'c', 'd', 'e', 'f']

/-- The upper-case hexadecimal digits in order. -/
def upperDigits : List Char := ['0', '1', '2', '3', '4', '5', '6', '7', '8', '9', 'A', 'B', 'C', 'D', 'E', 'F']

/-- The numeral of `n` in base `base`, most significant digit first, no leading zeros, with fuel. -/
def digitsOf (digits : List Char) (base : Nat) : Nat → Nat → Text
  | 0, _ => []
  | fuel + 1, n =>
    if n < base then [digits.getD n '0']
    else digitsOf digits base fuel (n / base) ++ [digits.getD (n % base) '0']

/-- The decimal numeral of a natural number. -/
def decimal (n : Nat) : Text := digitsOf lowerDigits 10 (n + 1) n

/-- The decimal numeral of an integer, with a leading `-` if it is negative. -/
def signedDecimal (v : Int) : Text := if v < 0 then '-' :: decimal v.natAbs else decimal v.natAbs

/-- The upper-case hexadecimal numeral of a natural number. -/
def upperHex (n : Nat) : Text := digitsOf upperDigits 16 (n + 1) n

/-- A text padded on the left to width `n`. -/
def padLeft (c : Char) (n : Nat) (t : Text) : Text := List.replicate (n - t.length) c ++ t

/-! ### The hexadecimal form of a word (R83, R90, spec/20_memory.md R56) -/

/-- The positions of the low bits of the eight digits of a word, first digit first: `w[31:28]` down to `w[3:0]`. -/
def nibblePositions : List Nat := [28, 24, 20, 16, 12, 8, 4, 0]

/-- The zero-padded 8-digit lower-case hexadecimal form (R90). -/
def hexWord (w : Word) : Text :=
  nibblePositions.map fun k => lowerDigits.getD (w.extractLsb' k 4).toNat '0'

/-- The word of exactly 8 hexadecimal digits of either case (R83); `none` for another length or alphabet. -/
def parseHexWord (t : Text) : Option Word :=
  if t.length = 8 then (numeral 16 t).map (BitVec.ofNat 32) else none

end Sys2Proof.Machine
end

