-- ==== Sys2Proof/Machine/State.lean ====
section
/-! DEFINITION. The state of the machine as plain data (spec/10_state.md R20), the reasons a step can stop, and the state
right after reset (R37). -/

namespace Sys2Proof.Machine

/-- The run status (R36). `faulted p`: the run stopped because the PC `p` was below 0 or above `N`. -/
inductive Status where
  | idle
  | running
  | halted
  | faulted (pc : Word)
  | killed
  deriving DecidableEq, Repr

/-- Data memory: the cells that do not hold 0, as pairs of key and word, keys strictly rising. The unit is the 32-bit cell,
not the byte: each key owns a whole word and cells of different keys never overlap (spec/20_memory.md R50, R52, R55; log
entry 7). A key that is not listed reads 0 (R51). -/
abbrev Memory := List (Nat × Word)

/-- The complete state (R20). `N` is the length of `insts`. `loaded` says whether a program has been loaded (R36, R222).
`killAge` is the model's own field: how many boundaries have passed with `kill` set and unseen (R35; log entry 9). -/
structure State where
  regs : Vector Word 32
  pc : Word
  mem : Memory
  insts : List Instr
  loaded : Bool
  kill : Bool
  status : Status
  killAge : Nat
  deriving DecidableEq, Repr

/-- The faults of a step. -/
inductive Fault where
  /-- `Simulation("No instructions here", pc)` (spec/60_exceptions.md R194): raised by a step of a machine whose status is
  `Faulted pc`, which the boundary before has set. No step follows (R36). Safe: the machine stops where the spec stops it. -/
  | simulation (pc : Word)
  deriving DecidableEq, Repr

/-- The message of the fault (R194). -/
def Fault.message : Fault → String
  | .simulation _ => "No instructions here"

/-- The refusals: of a step when no step is defined, and of a host operation when it is not allowed. -/
inductive Refusal where
  /-- An instruction without a meaning in this model: raised by `exec` alone. Safe. No instruction is refused so. -/
  | notModelled (mnemonic : String)
  /-- A step of a machine that is not running because `run` has not been called (R36). Safe: the sequencer does not move. -/
  | idle
  /-- A step of a machine that has halted: no step follows (R36). Safe. -/
  | halted
  /-- A step of a machine that has been killed: no step follows (R36). Safe. -/
  | killed
  /-- A host operation that spec/70_reset_and_hazards.md R222 does not allow while the run is in progress. Safe. -/
  | runInProgress
  /-- The host's load or `run` when the status is not `Idle` (R222). Safe. -/
  | notIdle
  /-- The host's `run` with no program loaded (R222). Safe. -/
  | noProgram
  /-- A second load: the list is filled once and fixed (R20, R221; log entry 13). Safe. -/
  | alreadyLoaded
  /-- The host's load of `2^31` words or more (R7, decision D18). Safe. -/
  | programTooLong
  /-- The host's load of a program with an invalid word (R192): the word and its position, from 0. Safe: the spec refuses it. -/
  | invalidInstruction (w : Word) (position : Nat)
  /-- The host's load of an image text that the loader refuses (R110, R192), with the loader's error. Safe: the spec refuses
  it. -/
  | imageRefused (e : SourceError)
  deriving DecidableEq, Repr

/-- The machine right after reset (R37, R220): registers at REG_RESET, every cell 0, no program, `kill` at KILL_RESET,
`Idle`. The PC is unspecified until `run` sets it: 0 here (log entry 2). -/
def State.reset : State :=
  { regs := Vector.ofFn fun i => Config.regReset (BitVec.ofFin i)
    pc := 0#32
    mem := []
    insts := []
    loaded := false
    kill := Config.killReset
    status := .idle
    killAge := 0 }

end Sys2Proof.Machine
end

