-- ==== Sys2Proof/Machine/Ops.lean ====
section
/-! DEFINITION. The named operations over registers, PC and data memory, the classification of an instruction boundary, and
the one exception of this hardware (spec/10_state.md R21, R22, R26, R30, spec/20_memory.md R50 to R54,
spec/60_exceptions.md R194). There is no trap entry and no return from one (R199, R200): raising `Simulation` stops the run. -/

namespace Sys2Proof.Machine

/-! ### Registers -/

/-- `x[i]` (R21): 0 when `i = 0`, else the stored value. -/
def State.getReg (s : State) (i : RegIdx) : Word :=
  if i = 0#5 then 0#32 else s.regs[i.toNat]

/-- `x[i] <- v` (R22). A write to register 0 is dropped, one of the two behaviours R22 calls indistinguishable (log entry
8). -/
def State.setReg (s : State) (i : RegIdx) (v : Word) : State :=
  { s with regs := if i = 0#5 then s.regs else s.regs.set i.toNat v }

/-! ### Program counter -/

/-- `pc <- t`. -/
def State.setPc (s : State) (t : Word) : State := { s with pc := t }

/-- `pc0 + 1`, 32-bit modular (R26). -/
def State.nextPc (s : State) : Word := s.pc + 1#32

/-! ### Data memory -/

/-- The word of the cell keyed `k`; 0 if it is not listed (R51). -/
def Memory.read : Memory → Nat → Word
  | [], _ => 0#32
  | (k', v) :: m, k => if k' = k then v else Memory.read m k

/-- The memory without the cell keyed `k`. -/
def Memory.erase : Memory → Nat → Memory
  | [], _ => []
  | (k', v) :: m, k => if k' = k then Memory.erase m k else (k', v) :: Memory.erase m k

/-- The memory with a cell put before the first one of a greater key. -/
def Memory.insert : Memory → Nat → Word → Memory
  | [], k, v => [(k, v)]
  | (k', v') :: m, k, v => if k < k' then (k, v) :: (k', v') :: m else (k', v') :: Memory.insert m k v

/-- The memory with the cell keyed `k` replaced (R54), in canonical form: a cell of value 0 is not listed. -/
def Memory.write (m : Memory) (k : Nat) (v : Word) : Memory :=
  if v = 0#32 then Memory.erase m k else Memory.insert (Memory.erase m k) k v

/-- Every key listed is greater than `lo`, keys rise strictly, no listed cell holds 0. -/
def Memory.risingFrom : Int → Memory → Bool
  | _, [] => true
  | lo, (k, v) :: m => decide (lo < (k : Int)) && (decide (k < 2 ^ 32) && (decide (v ≠ 0#32) && Memory.risingFrom k m))

/-- The canonical form: keys are 32-bit values (R50), strictly rising, and no listed cell holds what an unlisted one reads
as. -/
def Memory.wf (m : Memory) : Bool := Memory.risingFrom (-1) m

/-- `MemRead(addr, 4)` (R53): the one cell keyed `addr`; no address is refused. -/
def State.memRead (s : State) (addr : Word) : Word := Memory.read s.mem addr.toNat

/-- `MemWrite(addr, 4, v)` (R54): the one cell keyed `addr` is replaced; no address is refused. -/
def State.memWrite (s : State) (addr v : Word) : State :=
  { s with mem := Memory.write s.mem addr.toNat v }

/-! ### The instruction boundary (R30) -/

/-- `N`, the number of instructions loaded (R20). -/
def State.programLength (s : State) : Nat := s.insts.length

/-- What the PC tests of R30 find at a boundary: the PC is `N`, is out of range, or is the index of an instruction. -/
inductive Boundary where
  | atEnd
  | outOfRange
  | at (i : Instr)
  deriving DecidableEq, Repr

/-- The PC tests and the fetch, in the order of R30 (conflict C8): the halt test, the range test, then `insts[pc]`. The
list holds an instruction at every PC that passes both tests. -/
def State.boundary (s : State) : Boundary :=
  if s.pc.toInt = s.programLength then .atEnd
  else if s.pc.toInt < 0 ∨ (s.programLength : Int) < s.pc.toInt then .outOfRange
  else
    match s.insts[s.pc.toNat]? with
    | some i => .at i
    | none => .outOfRange

/-! ### The ways a run stops (R36, R194, R197, R223) -/

/-- `status <- Halted`. -/
def State.halt (s : State) : State := { s with status := .halted }

/-- `raise Simulation("No instructions here", pc)` (R194): `status <- Faulted(pc)`; nothing is saved and everything else
keeps its value (R199). -/
def State.raiseSimulation (s : State) : State := { s with status := .faulted s.pc }

/-- `status <- Killed` (R197). -/
def State.stopKilled (s : State) : State := { s with status := .killed }

/-! ### The kill input (R35; log entries 9, 10) -/

/-- Whether the sequencer sees `kill` at this boundary: it must be set, and the free value `Config.killSeen` decides until
the bound `Config.killBound` is reached. -/
def State.killIsSeen (s : State) : Bool :=
  s.kill && (decide (Config.killBound ≤ s.killAge) || Config.killSeen s.killAge)

/-- A boundary passed: with `kill` set, and so unseen, one more boundary is counted. -/
def State.passBoundary (s : State) : State :=
  { s with killAge := if s.kill then s.killAge + 1 else s.killAge }

/-- The stop at a boundary where `kill` is seen (R198): `Killed` at a valid index; at `N` or out of range either that or
what the PC tests say, as the free value `Config.killWins` decides. -/
def State.stopAtKill (s : State) : State :=
  match s.boundary with
  | .at _ => s.stopKilled
  | .atEnd => if Config.killWins s.killAge then s.stopKilled else s.halt
  | .outOfRange => if Config.killWins s.killAge then s.stopKilled else s.raiseSimulation

/-! ### The end of an instruction -/

/-- An instruction that writes one register and advances the PC by one. -/
def State.retire (s : State) (rd : RegIdx) (v : Word) : State := (s.setReg rd v).setPc s.nextPc

end Sys2Proof.Machine
end

