-- ==== Sys2Proof/Machine/Operands.lean ====
section
/-! DEFINITION. The operand forms: shift functions, the logical immediate, the effective address and the targets of the
control transfers (spec/00_scope.md R13, spec/42_alu_immediate.md R152, spec/43_load_store.md R160,
spec/44_control_transfer.md R171 to R174). -/

namespace Sys2Proof.Machine

/-- `shl(v, a)` (R13): logical left, zero fill. -/
def shl (v : Word) (a : Nat) : Word := v <<< a

/-- `shr_logical(v, a)` (R13): zero fill from the left. -/
def shrLogical (v : Word) (a : Nat) : Word := v >>> a

/-- `shr_arith(v, a)` (R13): the sign bit fills from the left. -/
def shrArith (v : Word) (a : Nat) : Word := v.sshiftRight a

/-- `logic_imm` under a value of the parameter LOGIC_IMM_EXT (R152). -/
def logicImmUnder (ext : LogicImmExt) (imm : Word) : Word :=
  match ext with
  | .slot => imm
  | .zero => zext16 imm

/-- `logic_imm`, the immediate operand of ANDI, ORI and XORI (R152; log entry 4). -/
def logicImm (imm : Word) : Word := logicImmUnder Config.logicImmExt imm

/-- `ea = x[rs] + imm` modulo `2^32` (R160). -/
def State.effectiveAddress (s : State) (rs : RegIdx) (imm : Word) : Word := s.getReg rs + imm

/-- The target of a taken branch, `pc0 + 1 + imm` modulo `2^32` (R171, R172). -/
def State.branchTarget (s : State) (imm : Word) : Word := s.nextPc + imm

/-- `q = shl(addr, 2) / 4` under a value of the parameter J_DIV (R173). -/
def jumpIndexUnder (div : JDiv) (addr : Word) : Word :=
  match div with
  | .signed => (shl addr 2).sdiv 4#32
  | .unsigned => (shl addr 2).udiv 4#32

/-- The target of J and JAL, `((pc0 + 1) & 0xF0000000) | q` (R173; log entry 6). -/
def State.jumpTarget (s : State) (addr : Word) : Word :=
  (s.nextPc &&& 0xF0000000#32) ||| jumpIndexUnder Config.jDiv addr

/-- The register JAL links (R174). -/
def linkRegister : RegIdx := 31#5

end Sys2Proof.Machine
end

