-- ==== Sys2Proof/Machine/AluImmediate.lean ====
section
/-! DEFINITION. The immediate ALU instructions ADDI, ANDI, ORI, XORI, LUI (spec/42_alu_immediate.md R150 to R156). `imm` is
the decoded slot; ANDI, ORI and XORI take it through `logicImm` (R152). Nothing traps. -/

namespace Sys2Proof.Machine

/-- ADDI (R151): `x[rt] <- x[rs] + imm` modulo `2^32`. -/
def execAddi (rt rs : RegIdx) (imm : Word) (s : State) : Host.Outcome State Fault Refusal :=
  .next (s.retire rt (s.getReg rs + imm))

/-- ANDI (R153): `x[rt] <- x[rs] & logic_imm`. -/
def execAndi (rt rs : RegIdx) (imm : Word) (s : State) : Host.Outcome State Fault Refusal :=
  .next (s.retire rt (s.getReg rs &&& logicImm imm))

/-- ORI (R154): `x[rt] <- x[rs] | logic_imm`. -/
def execOri (rt rs : RegIdx) (imm : Word) (s : State) : Host.Outcome State Fault Refusal :=
  .next (s.retire rt (s.getReg rs ||| logicImm imm))

/-- XORI (R155): `x[rt] <- x[rs] ^ logic_imm`. -/
def execXori (rt rs : RegIdx) (imm : Word) (s : State) : Host.Outcome State Fault Refusal :=
  .next (s.retire rt (s.getReg rs ^^^ logicImm imm))

/-- LUI (R156): `x[rt] <- shl(imm, 16)`. -/
def execLui (rt : RegIdx) (imm : Word) (s : State) : Host.Outcome State Fault Refusal :=
  .next (s.retire rt (shl imm 16))

end Sys2Proof.Machine
end

