-- ==== Sys2Proof/Machine/AluRegister.lean ====
section
/-! DEFINITION. The register-register ALU instructions ADD, SUB, AND, OR, XOR (spec/40_alu_register.md R130 to R136): both
sources are read, then the destination is written and the PC advances by one. Nothing traps. -/

namespace Sys2Proof.Machine

/-- ADD (R131): `x[rd] <- x[rs] + x[rt]` modulo `2^32`. -/
def execAdd (rd rs rt : RegIdx) (s : State) : Host.Outcome State Fault Refusal :=
  .next (s.retire rd (s.getReg rs + s.getReg rt))

/-- SUB (R132): `x[rd] <- x[rs] - x[rt]` modulo `2^32`. -/
def execSub (rd rs rt : RegIdx) (s : State) : Host.Outcome State Fault Refusal :=
  .next (s.retire rd (s.getReg rs - s.getReg rt))

/-- AND (R133): `x[rd] <- x[rs] & x[rt]`. -/
def execAnd (rd rs rt : RegIdx) (s : State) : Host.Outcome State Fault Refusal :=
  .next (s.retire rd (s.getReg rs &&& s.getReg rt))

/-- OR (R134): `x[rd] <- x[rs] | x[rt]`. -/
def execOr (rd rs rt : RegIdx) (s : State) : Host.Outcome State Fault Refusal :=
  .next (s.retire rd (s.getReg rs ||| s.getReg rt))

/-- XOR (R135): `x[rd] <- x[rs] ^ x[rt]`. -/
def execXor (rd rs rt : RegIdx) (s : State) : Host.Outcome State Fault Refusal :=
  .next (s.retire rd (s.getReg rs ^^^ s.getReg rt))

end Sys2Proof.Machine
end

