-- ==== Sys2Proof/Machine/Flags.lean ====
section
/-! DEFINITION. This hardware has no flags, condition codes or predicates, and no instruction computes one
(spec/10_state.md R28, spec/00_scope.md R11). Its only conditions are the two comparisons inside BEQ and BNE
(spec/44_control_transfer.md R171, R172), which compare all 32 bits of two registers. -/

namespace Sys2Proof.Machine

/-- `x[rs] == x[rt]`, all 32 bits equal (R171). -/
def State.regsEqual (s : State) (rs rt : RegIdx) : Bool := decide (s.getReg rs = s.getReg rt)

/-- `x[rs] != x[rt]`, any of the 32 bits differs (R172). -/
def State.regsDiffer (s : State) (rs rt : RegIdx) : Bool := decide (s.getReg rs ≠ s.getReg rt)

end Sys2Proof.Machine
end

