-- ==== Sys2Proof/Machine/ControlTransfer.lean ====
section
/-! DEFINITION. The control transfers BEQ, BNE, J, JAL, JR and the opcode-0 fallback (spec/44_control_transfer.md R170 to
R176). Every target is an instruction index; none is checked when the transfer executes, only at the next boundary (R170);
there is no delay slot. -/

namespace Sys2Proof.Machine

/-- BEQ (R171): to `pc0 + 1 + imm` if `x[rs] == x[rt]`, else to `pc0 + 1`. -/
def execBeq (rs rt : RegIdx) (imm : Word) (s : State) : Host.Outcome State Fault Refusal :=
  .next (s.setPc (if s.regsEqual rs rt then s.branchTarget imm else s.nextPc))

/-- BNE (R172): to `pc0 + 1 + imm` if `x[rs] != x[rt]`, else to `pc0 + 1`. -/
def execBne (rs rt : RegIdx) (imm : Word) (s : State) : Host.Outcome State Fault Refusal :=
  .next (s.setPc (if s.regsDiffer rs rt then s.branchTarget imm else s.nextPc))

/-- J (R173). -/
def execJ (addr : Word) (s : State) : Host.Outcome State Fault Refusal :=
  .next (s.setPc (s.jumpTarget addr))

/-- JAL (R174): `x[31] <- pc0 + 1`, then as J with the same `pc0` and `addr`. -/
def execJal (addr : Word) (s : State) : Host.Outcome State Fault Refusal :=
  .next ((s.setReg linkRegister s.nextPc).setPc (s.jumpTarget addr))

/-- JR (R175): `pc <- x[rs]`, the raw register value. -/
def execJr (rs : RegIdx) (s : State) : Host.Outcome State Fault Refusal :=
  .next (s.setPc (s.getReg rs))

/-- The opcode-0 fallback (R176): executes as JR. -/
def execJrFallback (rs : RegIdx) (s : State) : Host.Outcome State Fault Refusal :=
  .next (s.setPc (s.getReg rs))

end Sys2Proof.Machine
end

