-- ==== Sys2Proof/Machine/LoadStore.lean ====
section
/-! DEFINITION. LW and SW (spec/43_load_store.md R160 to R162): one addressing mode, one whole cell, no address can fault. -/

namespace Sys2Proof.Machine

/-- LW (R161): `x[rt] <- MemRead(ea, 4)`, the address from the old `x[rs]`. -/
def execLw (rt rs : RegIdx) (imm : Word) (s : State) : Host.Outcome State Fault Refusal :=
  .next (s.retire rt (s.memRead (s.effectiveAddress rs imm)))

/-- SW (R162): `MemWrite(ea, 4, x[rt])`; no register is written. -/
def execSw (rt rs : RegIdx) (imm : Word) (s : State) : Host.Outcome State Fault Refusal :=
  .next ((s.memWrite (s.effectiveAddress rs imm) (s.getReg rt)).setPc s.nextPc)

end Sys2Proof.Machine
end

