-- ==== Sys2Proof/Machine/Shifts.lean ====
section
/-! DEFINITION. The shifts by immediate SLL, SRL, SRA (spec/41_shifts.md R140 to R144). SRL is the ARITHMETIC right shift and
SRA the LOGICAL one: the source exchanges their canonical meanings and asks that this be preserved (R142, R143). -/

namespace Sys2Proof.Machine

/-- SLL (R141): `x[rd] <- shl(x[rt], sa)`. -/
def execSll (rd rt : RegIdx) (sa : ShAmt) (s : State) : Host.Outcome State Fault Refusal :=
  .next (s.retire rd (shl (s.getReg rt) sa.toNat))

/-- SRL (R142): `x[rd] <- shr_arith(x[rt], sa)`. -/
def execSrl (rd rt : RegIdx) (sa : ShAmt) (s : State) : Host.Outcome State Fault Refusal :=
  .next (s.retire rd (shrArith (s.getReg rt) sa.toNat))

/-- SRA (R143): `x[rd] <- shr_logical(x[rt], sa)`. -/
def execSra (rd rt : RegIdx) (sa : ShAmt) (s : State) : Host.Outcome State Fault Refusal :=
  .next (s.retire rd (shrLogical (s.getReg rt) sa.toNat))

end Sys2Proof.Machine
end

