-- ==== Sys2Proof/Machine/RunCycle.lean ====
section
/-! DEFINITION. One passage through the loop of the run cycle (spec/10_state.md R30), which `step` calls, and the placing of
an instruction where the next step fetches. -/

namespace Sys2Proof.Machine

/-- One passage through the loop of R30 of a running machine: the boundary's tests, then one whole instruction. -/
def cycle (s : State) : Host.Outcome State Fault Refusal :=
  if s.killIsSeen then .next s.stopAtKill
  else
    match s.boundary with
    | .atEnd => .next s.halt
    | .outOfRange => .next s.raiseSimulation
    | .at i => exec i s.passBoundary

/-- One step of the sequencer. Only a running machine moves (R36): a faulted one answers its fault (R194), every other one
is refused by its status (log entry 12). -/
def sequencerStep (s : State) : Host.Outcome State Fault Refusal :=
  match s.status with
  | .running => cycle s
  | .faulted p => .fault (.simulation p)
  | .idle => .refused .idle
  | .halted => .refused .halted
  | .killed => .refused .killed

/-- The PC is the index of an instruction. -/
def State.pcInRange (s : State) : Bool := decide (0 ≤ s.pc.toInt ∧ s.pc.toInt < s.programLength)

/-- The state with the instruction `i` where the next step fetches it, standing for the host's load and `run` (R221; log
entry 11): at the PC if the PC is an index of the program, else as a program of one instruction at index 0. -/
def State.placeInstr (s : State) (i : Instr) : State :=
  if s.pcInRange then
    { s with insts := s.insts.set s.pc.toNat i, loaded := true, kill := false, status := .running }
  else
    { s with insts := [i], pc := 0#32, loaded := true, kill := false, status := .running }

/-- The state with the instruction of bits `w` where the next step fetches it. A word that does not decode refuses the
program (R192): there is no instruction list and `run` is not entered. -/
def State.placeWord (s : State) (nbits w : Nat) : State :=
  match decodeTableWord nbits w with
  | some i => s.placeInstr i
  | none => { s with insts := [], loaded := false, status := .idle }

end Sys2Proof.Machine
end

