-- ==== Sys2Proof/Machine/Step.lean ====
section
/-! DEFINITION. The step of the machine, and the state in which the next step runs a given word. -/

namespace Sys2Proof.Machine

/-- One step: a passage through the loop of spec/10_state.md R30, or the reason there is none. -/
def step (s : State) : Host.Outcome State Fault Refusal := sequencerStep s

/-- `s` with the instruction of bits `w` stored where `step` fetches its next instruction, the run being in progress. -/
def State.withFetchWord (s : State) (nbits w : Nat) : State := s.placeWord nbits w

end Sys2Proof.Machine
end

