-- ==== Sys2Proof/Machine/Asm.lean ====
section
/-! DEFINITION. The assembler around the hardware (spec/30_encoding.md sections 8 to 10; spec/00_scope.md R5): the line
grammar, operands and their ranges, label resolution, and the words of a source text. -/

namespace Sys2Proof.Machine

/-! ### Names -/

/-- The mnemonic of a kind, in lower case (R98, R108). -/
def kindName : Kind → Text
  | .add => "add".toList
  | .sub => "sub".toList
  | .and => "and".toList
  | .or => "or".toList
  | .xor => "xor".toList
  | .sll => "sll".toList
  | .srl => "srl".toList
  | .sra => "sra".toList
  | .jr => "jr".toList
  | .addi => "addi".toList
  | .andi => "andi".toList
  | .ori => "ori".toList
  | .xori => "xori".toList
  | .lw => "lw".toList
  | .sw => "sw".toList
  | .beq => "beq".toList
  | .bne => "bne".toList
  | .lui => "lui".toList
  | .j => "j".toList
  | .jal => "jal".toList

/-- The kind of a mnemonic, matched without regard to case (R98); there are no others. -/
def kindOfName (t : Text) : Option Kind := Kind.all.find? fun k => kindName k == t.map toLowerChar

/-- The register names in the order of their indices (spec/10_state.md R24). -/
def registerNames : List Text :=
  ["zero".toList, "at".toList, "v0".toList, "v1".toList, "a0".toList, "a1".toList, "a2".toList, "a3".toList] ++
  ["t0".toList, "t1".toList, "t2".toList, "t3".toList, "t4".toList, "t5".toList, "t6".toList, "t7".toList] ++
  ["s0".toList, "s1".toList, "s2".toList, "s3".toList, "s4".toList, "s5".toList, "s6".toList, "s7".toList] ++
  ["t8".toList, "t9".toList, "k0".toList, "k1".toList, "gp".toList, "sp".toList, "fp".toList, "ra".toList]

/-! ### Operands (R99 to R104) -/

/-- Why an operand list is not accepted: `InvalidArgument`, or a point the source does not state. -/
inductive OperandError where
  | invalid
  | notStated (point : Unstated)
  deriving DecidableEq, Repr

/-- A register number in `0..31` (R100). -/
def registerOfNat (n : Nat) : Except OperandError RegIdx :=
  if n < 32 then .ok (BitVec.ofNat 5 n) else .error .invalid

/-- `$<n>` with `n` in `0..31`, or `$<name>` (R100). -/
def parseRegister (t : Text) : Except OperandError RegIdx :=
  match t with
  | '$' :: r =>
    match numeral 10 r with
    | some n => registerOfNat n
    | none =>
      match registerNames.idxOf? r with
      | some n => registerOfNat n
      | none => .error .invalid
  | _ => .error .invalid

/-- An unsigned integer literal: `0x` and hexadecimal digits, `0` and octal digits, or decimal digits (R101). -/
def parseUnsigned (t : Text) : Option Nat :=
  match t with
  | '0' :: 'x' :: r => numeral 16 r
  | '0' :: c :: r => numeral 8 (c :: r)
  | _ => numeral 10 t

/-- An integer literal, with an optional leading `-` (R101; log entry 20). -/
def parseLiteral (t : Text) : Option Int :=
  match t with
  | '-' :: r => (parseUnsigned r).map fun n => -(n : Int)
  | _ => (parseUnsigned t).map fun n => (n : Int)

/-- `fit-signed(v, n)`: `|v| < 2^n` (R102, "Keep this exact rule"). -/
def fitsSigned (v : Int) (n : Nat) : Bool := decide (v.natAbs < 2 ^ n)

/-- An integer literal that fits a field of width `n` (R102). -/
def parseFitting (n : Nat) (t : Text) : Except OperandError Int :=
  match parseLiteral t with
  | some v => if fitsSigned v n then .ok v else .error .invalid
  | none => .error .invalid

/-- The pattern `-?\d+`: a label may not have this form (R97), and an operand of a branch or jump that has it is a number
(R104; log entry 21). -/
def isIntegerForm (t : Text) : Bool :=
  match t with
  | '-' :: r => !r.isEmpty && r.all isDigitChar
  | _ => !t.isEmpty && t.all isDigitChar

/-- The operand of a branch or jump (R104): a number that fits the field, or a label to be resolved. A literal in `0x` form
is neither, by the source's silence. -/
def parseTarget (n : Nat) (t : Text) : Except OperandError (Int × Option Text) :=
  if isIntegerForm t then
    match parseFitting n t with
    | .ok v => .ok (v, none)
    | .error e => .error e
  else
    match parseLiteral t with
    | some _ => .error (.notStated .prefixedTarget)
    | none => .ok (0, some t)

/-- The operand `imm($<digits>)` of LW and SW: the texts of the immediate and of the base's digits (R103). -/
def splitBased (t : Text) : Option (Text × Text) :=
  match t.reverse with
  | ')' :: r =>
    match r.dropWhile isDigitChar with
    | '$' :: '(' :: m =>
      if m.isEmpty || (r.takeWhile isDigitChar).isEmpty then none
      else some (m.reverse, (r.takeWhile isDigitChar).reverse)
    | _ => none
  | _ => none

/-- `$rd, $rs, $rt`. -/
def parseThreeRegs (mk : RegIdx → RegIdx → RegIdx → Instr) : List Text → Except OperandError (Instr × Option Text)
  | [d, s, t] => do
    let rd ← parseRegister d
    let rs ← parseRegister s
    let rt ← parseRegister t
    return (mk rd rs rt, none)
  | _ => .error .invalid

/-- `$rd, $rt, sa`. -/
def parseShift (mk : RegIdx → RegIdx → ShAmt → Instr) : List Text → Except OperandError (Instr × Option Text)
  | [d, t, a] => do
    let rd ← parseRegister d
    let rt ← parseRegister t
    let sa ← parseFitting 5 a
    return (mk rd rt (BitVec.ofInt 5 sa), none)
  | _ => .error .invalid

/-- `$rt, $rs, imm`. -/
def parseImmediate (mk : RegIdx → RegIdx → Word → Instr) : List Text → Except OperandError (Instr × Option Text)
  | [t, s, i] => do
    let rt ← parseRegister t
    let rs ← parseRegister s
    let imm ← parseFitting 16 i
    return (mk rt rs (BitVec.ofInt 32 imm), none)
  | _ => .error .invalid

/-- `$rt, imm($rs)`. -/
def parseBased (mk : RegIdx → RegIdx → Word → Instr) : List Text → Except OperandError (Instr × Option Text)
  | [t, b] => do
    let rt ← parseRegister t
    match splitBased b with
    | some (i, n) =>
      let imm ← parseFitting 16 i
      let rs ← parseRegister ('$' :: n)
      return (mk rt rs (BitVec.ofInt 32 imm), none)
    | none => .error .invalid
  | _ => .error .invalid

/-- `$rs, $rt, label-or-imm`. -/
def parseBranch (mk : RegIdx → RegIdx → Word → Instr) : List Text → Except OperandError (Instr × Option Text)
  | [s, t, i] => do
    let rs ← parseRegister s
    let rt ← parseRegister t
    let (imm, jumpto) ← parseTarget 16 i
    return (mk rs rt (BitVec.ofInt 32 imm), jumpto)
  | _ => .error .invalid

/-- `label-or-addr`. -/
def parseJump (mk : Word → Instr) : List Text → Except OperandError (Instr × Option Text)
  | [a] => do
    let (addr, jumpto) ← parseTarget 26 a
    return (mk (BitVec.ofInt 32 addr), jumpto)
  | _ => .error .invalid

/-- The operands of a kind, in assembly order, their count exact (R99): the instruction, and the label its target awaits. -/
def parseOperands (k : Kind) (ops : List Text) : Except OperandError (Instr × Option Text) :=
  match k with
  | .add => parseThreeRegs .add ops
  | .sub => parseThreeRegs .sub ops
  | .and => parseThreeRegs .and ops
  | .or => parseThreeRegs .or ops
  | .xor => parseThreeRegs .xor ops
  | .sll => parseShift .sll ops
  | .srl => parseShift .srl ops
  | .sra => parseShift .sra ops
  | .jr =>
    match ops with
    | [s] => do
      let rs ← parseRegister s
      return (.jr rs, none)
    | _ => .error .invalid
  | .addi => parseImmediate .addi ops
  | .andi => parseImmediate .andi ops
  | .ori => parseImmediate .ori ops
  | .xori => parseImmediate .xori ops
  | .lw => parseBased .lw ops
  | .sw => parseBased .sw ops
  | .beq => parseBranch .beq ops
  | .bne => parseBranch .bne ops
  | .lui =>
    match ops with
    | [t, i] => do
      let rt ← parseRegister t
      let imm ← parseFitting 16 i
      return (.lui rt (BitVec.ofInt 32 imm), none)
    | _ => .error .invalid
  | .j => parseJump .j ops
  | .jal => parseJump .jal ops

/-! ### Lines (R95 to R97) -/

/-- The line without its comment (R96 step 1), and without white space at its end (log entry 19). -/
def lineBody (line : Text) : Text := trimEnd (line.takeWhile fun c => c != ';')

/-- The tokens of a line: split by runs of space and tab into at most three, the third the whole rest (R96 step 3). -/
def lineTokens (t : Text) : List Text :=
  let first := t.takeWhile fun c => !isBlankChar c
  match t.dropWhile fun c => !isBlankChar c with
  | [] => [first]
  | r =>
    let rest := r.dropWhile isBlankChar
    let second := rest.takeWhile fun c => !isBlankChar c
    match rest.dropWhile fun c => !isBlankChar c with
    | [] => [first, second]
    | q => [first, second, q.dropWhile isBlankChar]

/-- The label of a line's first token (R96 step 4, R97): none if the token is empty. -/
def lineLabel (token : Text) : Except SyntaxMessage (Option Text) :=
  match token.reverse with
  | [] => .ok none
  | ':' :: r => if isIntegerForm r.reverse then .error .labelIsInteger else .ok (some r.reverse)
  | _ => .error .labelNeedsColon

/-- The operands of a statement: split by commas, white space around each dropped (R96 step 5; log entry 19). -/
def lineOperands (t : Text) : List Text := (splitAt ',' t).map fun o => trimEnd (trimStart o)

/-- A parsed statement: the instruction, the label its target awaits, its line and its step index (spec/10_state.md R34). -/
structure Statement where
  instr : Instr
  jumpto : Option Text
  lineNo : Nat
  stepNo : Nat
  deriving DecidableEq, Repr

/-- What the assembler has read: the statements in order and the label table (R97). -/
structure Listing where
  statements : List Statement
  labels : List (Text × Nat)
  deriving DecidableEq, Repr

/-- A label entered as the index of the next instruction (R97). A second definition is not stated by the source. -/
def Listing.addLabel (l : Listing) (label : Option Text) (line : Nat) : Except SourceError Listing :=
  match label with
  | none => .ok l
  | some name =>
    match l.labels.lookup name with
    | some _ => .error (.notStated .duplicateLabel line)
    | none => .ok { l with labels := l.labels ++ [(name, l.statements.length)] }

/-- A statement of the line `text` appended (R96 step 5). -/
def Listing.addStatement (l : Listing) (mnemonic operands text : Text) (line : Nat) : Except SourceError Listing :=
  match kindOfName mnemonic with
  | none => .error (syntaxError .invalidMnemonic text line)
  | some k =>
    match parseOperands k (lineOperands operands) with
    | .error .invalid => .error (argumentError k (lineOperands operands) line)
    | .error (.notStated p) => .error (.notStated p line)
    | .ok (i, jumpto) =>
      .ok { l with statements := l.statements ++ [⟨i, jumpto, line, l.statements.length⟩] }

/-- One line read (R96). -/
def Listing.addLine (l : Listing) (text : Text) (line : Nat) : Except SourceError Listing :=
  if (lineBody text).isEmpty then .ok l
  else
    match lineTokens (lineBody text) with
    | [t] =>
      match lineLabel t with
      | .error m => .error (syntaxError m text line)
      | .ok label => l.addLabel label line
    | [t, mnemonic, operands] =>
      match lineLabel t with
      | .error m => .error (syntaxError m text line)
      | .ok label =>
        match l.addLabel label line with
        | .error e => .error e
        | .ok l' => l'.addStatement mnemonic operands text line
    | _ => .error (syntaxError .noArguments text line)

/-- The lines read in order, the first of number `line`; the first error aborts (R111). -/
def Listing.addLines (l : Listing) (line : Nat) : List Text → Except SourceError Listing
  | [] => .ok l
  | t :: ts =>
    match l.addLine t line with
    | .error e => .error e
    | .ok l' => Listing.addLines l' (line + 1) ts

/-! ### Label resolution and the words (R105, R106) -/

/-- The displacement of a branch at step `s` to a label at step `k`: `k - 1 - s` (R105). -/
def branchDisplacement (k s : Nat) : Word := BitVec.ofInt 32 ((k : Int) - 1 - s)

/-- A statement's instruction with its target resolved (R105, R106). The encoder truncates the slot to its field
(decisions D11, D20). -/
def Statement.resolve (labels : List (Text × Nat)) (st : Statement) : Except SourceError Instr :=
  match st.jumpto with
  | none => .ok st.instr
  | some name =>
    match labels.lookup name with
    | none => .error (.labelNotFound name st.lineNo)
    | some k =>
      match st.instr with
      | .beq rs rt _ => .ok (.beq rs rt (branchDisplacement k st.stepNo))
      | .bne rs rt _ => .ok (.bne rs rt (branchDisplacement k st.stepNo))
      | .j _ => .ok (.j (BitVec.ofNat 32 k))
      | .jal _ => .ok (.jal (BitVec.ofNat 32 k))
      | i => .ok i

/-- The words of statements with their targets resolved; the first unknown label aborts (R105, R111). -/
def resolveAll (labels : List (Text × Nat)) : List Statement → Except SourceError (List Word)
  | [] => .ok []
  | st :: sts =>
    match st.resolve labels with
    | .error e => .error e
    | .ok i =>
      match resolveAll labels sts with
      | .error e => .error e
      | .ok ws => .ok (encode i :: ws)

/-- The assembler: a source text to the words of its program, or the first error and no output (R111). -/
def assemble (source : Text) : Except SourceError (List Word) :=
  match Listing.addLines ⟨[], []⟩ 1 (splitAt '\n' source) with
  | .error e => .error e
  | .ok l => resolveAll l.labels l.statements

end Sys2Proof.Machine
end

