-- ==== Sys2Proof/Machine/Disasm.lean ====
section
/-! DEFINITION. The disassembler's rendering of an instruction (spec/30_encoding.md R108). -/

namespace Sys2Proof.Machine

/-- `$<index>`: registers always render so. -/
def renderRegister (r : RegIdx) : Text := '$' :: decimal r.toNat

/-- `sign-extend(imm, 16)` as a signed decimal. -/
def renderSigned16 (imm : Word) : Text := signedDecimal (sext16 imm).toInt

/-- `zero-extend(imm, 16)` as an unsigned decimal. -/
def renderUnsigned16 (imm : Word) : Text := decimal (zext16 imm).toNat

/-- A slot as stored, as a signed decimal. -/
def renderStored (v : Word) : Text := signedDecimal v.toInt

/-- The operands of an instruction, in assembly order. -/
def renderOperands : Instr → List Text
  | .add rd rs rt | .sub rd rs rt | .and rd rs rt | .or rd rs rt | .xor rd rs rt =>
    [renderRegister rd, renderRegister rs, renderRegister rt]
  | .sll rd rt sa | .srl rd rt sa | .sra rd rt sa => [renderRegister rd, renderRegister rt, decimal sa.toNat]
  | .jr rs | .jrFallback rs => [renderRegister rs]
  | .addi rt rs imm => [renderRegister rt, renderRegister rs, renderSigned16 imm]
  | .andi rt rs imm | .ori rt rs imm | .xori rt rs imm =>
    [renderRegister rt, renderRegister rs, renderUnsigned16 imm]
  | .lw rt rs imm | .sw rt rs imm =>
    [renderRegister rt, renderSigned16 imm ++ ['('] ++ renderRegister rs ++ [')']]
  | .beq rs rt imm | .bne rs rt imm => [renderRegister rs, renderRegister rt, renderStored imm]
  | .lui rt imm => [renderRegister rt, renderStored imm]
  | .j addr | .jal addr => [renderStored addr]

/-- One line: a tab, the mnemonic in lower case, a tab, the operands separated by a comma and a space. -/
def renderInstr (i : Instr) : Text :=
  ['\t'] ++ kindName i.kind ++ ['\t'] ++ List.intercalate [',', ' '] (renderOperands i)

/-- The text of a program, one line per instruction. -/
def disassemble (is : List Instr) : Text := is.flatMap fun i => renderInstr i ++ ['\n']

end Sys2Proof.Machine
end

