-- ==== Sys2Proof/Machine/Image.lean ====
section
/-! DEFINITION. The hex image (spec/30_encoding.md R109, R110): the lines the assembler writes and the lines the loader
reads. The list is the words in line order; the first field of a line is not used (conflict C3, decision D7). -/

namespace Sys2Proof.Machine

/-- The line of instruction `i` (R109): its index, its word, and its byte address as a comment. -/
def imageLine (i : Nat) (w : Word) : Text :=
  padLeft ' ' 2 (upperHex i) ++ " :     ".toList ++ hexWord w ++ "; % (".toList ++
    padLeft '0' 2 (upperHex (4 * i)) ++ ") %".toList

/-- The lines of words from index `i` on, each ended by a newline. -/
def imageFrom : Nat → List Word → Text
  | _, [] => []
  | i, w :: ws => imageLine i w ++ ['\n'] ++ imageFrom (i + 1) ws

/-- The image of a program. -/
def image (ws : List Word) : Text := imageFrom 0 ws

/-- The second capture of the pattern `\s*([a-zA-Z0-9]+)\s*:\s*([a-zA-Z0-9]{8});.*` (R110); `none` if the line does not
match. -/
def imageLineWord (line : Text) : Option Text :=
  let t := trimStart line
  if (t.takeWhile isAlnumChar).isEmpty then none
  else
    match trimStart (t.dropWhile isAlnumChar) with
    | ':' :: r =>
      let u := trimStart r
      match u.drop 8 with
      | ';' :: _ => if (u.take 8).all isAlnumChar then some (u.take 8) else none
      | _ => none
    | _ => none

/-- The instructions of the lines of an image, the first of number `line`: empty lines are skipped, and the first line that
does not match (R110), word that is not hexadecimal (R83) or invalid instruction (R82) refuses the image (R192). -/
def imageInstrs (line : Nat) : List Text → Except SourceError (List Instr)
  | [] => .ok []
  | t :: ts =>
    if t.isEmpty then imageInstrs (line + 1) ts
    else
      match imageLineWord t with
      | none => .error (syntaxError .invalidFormat t line)
      | some hex =>
        match parseHexWord hex with
        | none => .error (.invalidInstruction hex line)
        | some w =>
          match decode w with
          | .error _ => .error (.invalidInstruction hex line)
          | .ok i =>
            match imageInstrs (line + 1) ts with
            | .error e => .error e
            | .ok is => .ok (i :: is)

/-- `decode(image)` on a text: its instructions in line order. -/
def decodeImage (source : Text) : Except SourceError (List Instr) := imageInstrs 1 (splitAt '\n' source)

end Sys2Proof.Machine
end

