-- ==== Sys2Proof/Machine/HostOps.lean ====
section
/-! DEFINITION. The host's operations, each with the statuses in which spec/70_reset_and_hazards.md R222 allows it
(spec/10_state.md R38). A host operation happens between two steps; while the run is in progress the only move is setting
`kill`. An operation that is not allowed is refused by name and changes nothing. -/

namespace Sys2Proof.Machine

/-- `create`: a fresh simulator (R220). -/
def hostCreate : State := State.reset

/-- A decoded program put into the instruction list: only once per instance (R20, R221; log entry 13), and of fewer than
`2^31` instructions (R7, decision D18). -/
def installProgram (is : List Instr) (s : State) : Host.Outcome State Fault Refusal :=
  if s.loaded then .refused .alreadyLoaded
  else if 2 ^ 31 ≤ is.length then .refused .programTooLong
  else .next { s with insts := is, loaded := true }

/-- `decode(image)` on a list of words, in line order (R33, R84, R192, decision D7): all or nothing. -/
def hostLoad (ws : List Word) (s : State) : Host.Outcome State Fault Refusal :=
  match s.status with
  | .idle =>
    match decodeAll 0 ws with
    | .error (w, n) => .refused (.invalidInstruction w n)
    | .ok is => installProgram is s
  | _ => .refused .notIdle

/-- `decode(image)` on the text of a hex image (R110, R192): all or nothing. -/
def hostLoadImage (text : Text) (s : State) : Host.Outcome State Fault Refusal :=
  match s.status with
  | .idle =>
    match decodeImage text with
    | .error e => .refused (.imageRefused e)
    | .ok is => installProgram is s
  | _ => .refused .notIdle

/-- `setMemory(a, v)`: before the run or after it has stopped (R222, spec/20_memory.md R64). -/
def hostSetMemory (a v : Word) (s : State) : Host.Outcome State Fault Refusal :=
  match s.status with
  | .running => .refused .runInProgress
  | _ => .next (s.memWrite a v)

/-- `run`: from `Idle` with a program loaded; the status becomes `Running` and the PC 0 (R30, R221, R222). -/
def hostRun (s : State) : Host.Outcome State Fault Refusal :=
  match s.status with
  | .idle => if s.loaded then .next { s with status := .running, pc := 0#32 } else .refused .noProgram
  | _ => .refused .notIdle

/-- Setting `kill`: at any time (R222). -/
def hostSetKill (s : State) : Host.Outcome State Fault Refusal := .next { s with kill := true }

/-- `getMemory(a)`: the cell, when the run is not in progress (R222). -/
def hostGetMemory (a : Word) (s : State) : Except Refusal Word :=
  match s.status with
  | .running => .error .runInProgress
  | _ => .ok (s.memRead a)

/-- `getRegfile()`: the 32 register values, register 0 as 0, when the run is not in progress (R222, R23). -/
def hostGetRegfile (s : State) : Except Refusal (Vector Word 32) :=
  match s.status with
  | .running => .error .runInProgress
  | _ => .ok (Vector.ofFn fun i => s.getReg (BitVec.ofFin i))

/-- `getPc()`: the PC, when the run is not in progress (R222). -/
def hostGetPc (s : State) : Except Refusal Word :=
  match s.status with
  | .running => .error .runInProgress
  | _ => .ok s.pc

/-- The moves of the host on an instance (R222). -/
inductive HostMove where
  | load (ws : List Word)
  | loadImage (text : Text)
  | setMemory (a v : Word)
  | run
  | setKill
  deriving DecidableEq, Repr

/-- A move of the host. -/
def hostMove (m : HostMove) (s : State) : Host.Outcome State Fault Refusal :=
  match m with
  | .load ws => hostLoad ws s
  | .loadImage text => hostLoadImage text s
  | .setMemory a v => hostSetMemory a v s
  | .run => hostRun s
  | .setKill => hostSetKill s

end Sys2Proof.Machine
end

