-- ==== Sys2Proof/Safety.lean ====
section
/-! DEFINITION. The terms in which the statements speak: what an instruction leaves as it was, the invariant of the machine,
and what counts as the successful end of a run (spec/60_exceptions.md R196, spec/70_reset_and_hazards.md R223). -/

namespace Sys2Proof.Machine

/-- Every register reads as before. -/
def SameRegs (s t : State) : Prop := ∀ r : RegIdx, t.getReg r = s.getReg r

/-- Register `rd` reads `v` unless it is register 0, which reads 0; every other register reads as before (R21, R22). -/
def RegWritten (s t : State) (rd : RegIdx) (v : Word) : Prop :=
  ∀ r : RegIdx, t.getReg r = if r = 0#5 then 0#32 else if r = rd then v else s.getReg r

/-- Every cell of data memory reads as before. -/
def SameMem (s t : State) : Prop := ∀ a : Word, t.memRead a = s.memRead a

/-- The cell keyed `ea` reads `v`, every other cell reads as before (R54). -/
def CellWritten (s t : State) (ea v : Word) : Prop :=
  ∀ a : Word, t.memRead a = if a = ea then v else s.memRead a

/-- The program, the kill input and what the model counts of it, and the run status are as before. -/
def SameControl (s t : State) : Prop :=
  t.insts = s.insts ∧ t.loaded = s.loaded ∧ t.kill = s.kill ∧ t.killAge = s.killAge ∧ t.status = s.status

/-- The state with another value in the storage slot of register 0 (R34). -/
def State.withSlotZero (s : State) (x : Word) : State := { s with regs := s.regs.set 0 x }

/-- The PC is out of range: the cause of `Simulation` (R194). -/
def State.pcOutOfRange (s : State) : Prop := s.pc.toInt < 0 ∨ (s.programLength : Int) < s.pc.toInt

/-- What the status says about the PC, the program and `kill` (R36, R222). -/
def State.statusHolds (s : State) : Prop :=
  match s.status with
  | .idle => True
  | .running => s.loaded = true
  | .halted => s.pc.toInt = s.programLength
  | .faulted p => p = s.pc ∧ s.pcOutOfRange
  | .killed => s.kill = true

/-- The invariant: memory is canonical (R50, R51), the program has fewer than `2^31` instructions (R7), each one the
decoder can answer (R33), the status tells the truth (R36), and `kill` has not been unseen beyond its bound (R35). -/
structure Inv (s : State) : Prop where
  mem : Memory.wf s.mem = true
  length : s.programLength < 2 ^ 31
  insts : ∀ i ∈ s.insts, i.wf = true
  status : s.statusHolds
  killAge : s.killAge ≤ Config.killBound

/-- The successful end: the status is `Halted`. `Faulted` and `Killed` are not (R196, R223). -/
def State.completed (s : State) : Prop := s.status = .halted

end Sys2Proof.Machine
end

