-- ==== Sys2Proof/Certificates/Slice0/Obligations.lean ====
section
/-! DEFINITION. The statements about the machine, each from the rules of spec/ its docstring cites. In a statement about one
instruction the first part says which words decode to it, the second what it does in every state: it completes, what it
writes, and that everything else is as it was. -/

open Sys2Proof Sys2Proof.Machine

/-! ### Decoding and encoding -/

/-- The decoder vectors of spec/95_test_vectors.md 2.1, one per family, the ignored-bits and the fallback corners among
them. That the word `0000000c` decodes to JR's fallback is the MODEL'S CHOICE (log entry 5, the spec's decision D4). -/
def Obligations.DecodeVectors : Prop :=
  decode 0x00000000#32 = .ok (.sll 0 0 0) ∧
  decode 0x014b4820#32 = .ok (.add 9 10 11) ∧
  decode 0x014b4fe0#32 = .ok (.add 9 10 11) ∧
  decode 0x00011102#32 = .ok (.srl 2 1 4) ∧
  decode 0x0000000c#32 = .ok (.jrFallback 0) ∧
  decode 0x3401ffff#32 = .ok (.ori 1 0 0xffffffff#32) ∧
  decode 0x8c24fffc#32 = .ok (.lw 4 1 0xfffffffc#32) ∧
  decode 0x1420fffe#32 = .ok (.bne 1 0 0xfffffffe#32) ∧
  decode 0x0a000000#32 = .ok (.j 0xfe000000#32) ∧
  decode 0x04000000#32 = .error (.invalidInstruction 0x04000000#32)

/-- R78: a word is of a kind when `w & mask == match`, the columns being what the opcode and function code columns give, and
no two rows match the same word. -/
def Obligations.KindsByMask : Prop :=
  (∀ (k : Kind) (w : Word), w &&& k.mask = k.pattern ↔ assignedKind w = some k) ∧
  (∀ k : Kind, k.pattern = BitVec.ofNat 32 (k.opcode.toNat * 2 ^ 26 + k.funct.toNat)) ∧
  (∀ (k l : Kind) (w : Word), w &&& k.mask = k.pattern → w &&& l.mask = l.pattern → k = l)

/-- R82: `InvalidInstruction` exactly for the words whose opcode is none of the twelve assigned. -/
def Obligations.InvalidExactly : Prop :=
  ∀ w : Word, (∀ i, decode w ≠ .ok i) ↔
    (w.extractLsb' 26 6).toNat ∉ [0, 2, 3, 4, 5, 8, 12, 13, 14, 15, 35, 43]

/-- R86 with the spec's decision D4 (log entry 5): opcode 0 with a function code outside the nine known decodes to the
fallback, with `rs` the only slot, and no other word does. -/
def Obligations.FallbackExactly : Prop :=
  ∀ (w : Word) (rs : RegIdx), decode w = .ok (.jrFallback rs) ↔
    (w.extractLsb' 26 6).toNat = 0 ∧ (w.extractLsb' 0 6).toNat ∉ [0, 2, 3, 8, 32, 34, 36, 37, 38] ∧
      rs = w.extractLsb' 21 5

/-- R81: the bits outside a kind's shape neither select the kind nor reach any slot: `w[10:6]` of the register-register
instructions, `w[25:21]` of the shifts and LUI, `w[20:6]` of JR, and for the fallback `w[20:0]`, as long as the function code
stays an unknown one: such a word is a fallback word of the same `rs`, whatever those bits. -/
def Obligations.IgnoredBits : Prop :=
  (∀ w x : Word, assignedKind w = some .jr → decode ((w &&& 0xFFE0003F#32) ||| (x &&& 0x001FFFC0#32)) = decode w) ∧
  (∀ w x : Word, (∃ k ∈ [Kind.add, .sub, .and, .or, .xor], assignedKind w = some k) →
    decode ((w &&& 0xFFFFF83F#32) ||| (x &&& 0x000007C0#32)) = decode w) ∧
  (∀ w x : Word, (∃ k ∈ [Kind.sll, .srl, .sra, .lui], assignedKind w = some k) →
    decode ((w &&& 0xFC1FFFFF#32) ||| (x &&& 0x03E00000#32)) = decode w) ∧
  (∀ (w w' : Word) (rs rs' : RegIdx), decode w = .ok (.jrFallback rs) → decode w' = .ok (.jrFallback rs') →
    w &&& 0x03E00000#32 = w' &&& 0x03E00000#32 → decode w' = decode w) ∧
  (∀ (w x : Word) (rs : RegIdx), decode w = .ok (.jrFallback rs) →
    decode ((w &&& 0xFFE0003F#32) ||| (x &&& 0x001FFFC0#32)) = decode w) ∧
  (∀ (w x : Word) (rs : RegIdx), decode w = .ok (.jrFallback rs) →
    (x.extractLsb' 0 6).toNat ∉ [0, 2, 3, 8, 32, 34, 36, 37, 38] →
    decode ((w &&& 0xFFE00000#32) ||| (x &&& 0x001FFFFF#32)) = decode w)

/-- R80 with the field positions of R74 and the extensions of R75 and R76 (the MODEL'S CHOICE of log entry 24, the spec's
decision D13, on the word "form"): the
slots of the shape are the fields, every other slot is 0. -/
def Obligations.SlotsFilled : Prop :=
  ∀ (w : Word) (i : Instr), decode w = .ok i →
    i.slots.rs = (if i.kind ∈ [Kind.sll, .srl, .sra, .lui, .j, .jal] then 0 else w.extractLsb' 21 5) ∧
    i.slots.rt = (if i.kind ∈ [Kind.jr, .j, .jal] then 0 else w.extractLsb' 16 5) ∧
    i.slots.rd = (if i.kind ∈ [Kind.add, .sub, .and, .or, .xor, .sll, .srl, .sra] then w.extractLsb' 11 5 else 0) ∧
    i.slots.sa = (if i.kind ∈ [Kind.sll, .srl, .sra] then w.extractLsb' 6 5 else 0) ∧
    i.slots.immediate = (if i.kind.format = .i then (w.extractLsb' 0 16).signExtend 32 else 0) ∧
    i.slots.address = (if i.kind.format = .j then (w.extractLsb' 0 26).signExtend 32 else 0)

/-- R75, R76: what the decoder answers is well formed: its slots are in the ranges of their fields. -/
def Obligations.DecodedWellFormed : Prop :=
  ∀ (w : Word) (i : Instr), decode w = .ok i → i.wf = true

/-- R91: decoding the encoded word of a well-formed instruction gives the same instruction, and for slots outside their
fields' ranges the value reduced into the range; the fallback's word reads back as JR, the same kind and slots (the kind of the
fallback is the MODEL'S CHOICE of log entry 5, the spec's decision D4). -/
def Obligations.DecodeEncode : Prop :=
  (∀ i : Instr, i.wf = true → (∀ rs, i ≠ .jrFallback rs) → decode (encode i) = .ok i) ∧
  (∀ i : Instr, decode (encode i) = .ok i.canonical) ∧
  (∀ i : Instr, i.wf = true → i.canonical.kind = i.kind ∧ i.canonical.slots = i.slots)

/-- R92, R86: encoding what a word decodes to gives the word with its ignored bits cleared, so the word itself exactly when
they are 0; for a fallback word, the canonical JR word (the MODEL'S CHOICE of log entry 5, the spec's decision D4). -/
def Obligations.EncodeDecode : Prop :=
  ∀ (w : Word) (i : Instr), decode w = .ok i →
    ((∀ rs, i ≠ .jrFallback rs) → encode i = w &&& ~~~ i.kind.ignored ∧ (encode i = w ↔ w &&& i.kind.ignored = 0)) ∧
    (∀ rs, i = .jrFallback rs → encode i = (w &&& 0x03E00000#32) ||| 0x00000008#32)

/-! ### Register-register ALU (R131 to R135) -/

/-- R131 ADD: the exact sum modulo `2^32`. -/
def Obligations.AddRule : Prop :=
  (∀ w : Word, w &&& 0xFC00003F#32 = 0x00000020#32 →
    decode w = .ok (.add (w.extractLsb' 11 5) (w.extractLsb' 21 5) (w.extractLsb' 16 5))) ∧
  ∀ (rd rs rt : RegIdx) (s : State), ∃ t, exec (.add rd rs rt) s = .next t ∧
    RegWritten s t rd (BitVec.ofNat 32 ((s.getReg rs).toNat + (s.getReg rt).toNat)) ∧
    t.pc = s.pc + 1 ∧ SameMem s t ∧ SameControl s t

/-- R132 SUB: `rs` the minuend, `rt` the subtrahend, the exact difference modulo `2^32`. -/
def Obligations.SubRule : Prop :=
  (∀ w : Word, w &&& 0xFC00003F#32 = 0x00000022#32 →
    decode w = .ok (.sub (w.extractLsb' 11 5) (w.extractLsb' 21 5) (w.extractLsb' 16 5))) ∧
  ∀ (rd rs rt : RegIdx) (s : State), ∃ t, exec (.sub rd rs rt) s = .next t ∧
    RegWritten s t rd (BitVec.ofInt 32 ((s.getReg rs).toInt - (s.getReg rt).toInt)) ∧
    t.pc = s.pc + 1 ∧ SameMem s t ∧ SameControl s t

/-- R133 AND: bit by bit, all 32 bits. -/
def Obligations.AndRule : Prop :=
  (∀ w : Word, w &&& 0xFC00003F#32 = 0x00000024#32 →
    decode w = .ok (.and (w.extractLsb' 11 5) (w.extractLsb' 21 5) (w.extractLsb' 16 5))) ∧
  ∀ (rd rs rt : RegIdx) (s : State), ∃ t v, exec (.and rd rs rt) s = .next t ∧ RegWritten s t rd v ∧
    (∀ k < 32, v.getLsbD k = ((s.getReg rs).getLsbD k && (s.getReg rt).getLsbD k)) ∧
    t.pc = s.pc + 1 ∧ SameMem s t ∧ SameControl s t

/-- R134 OR: bit by bit, all 32 bits. -/
def Obligations.OrRule : Prop :=
  (∀ w : Word, w &&& 0xFC00003F#32 = 0x00000025#32 →
    decode w = .ok (.or (w.extractLsb' 11 5) (w.extractLsb' 21 5) (w.extractLsb' 16 5))) ∧
  ∀ (rd rs rt : RegIdx) (s : State), ∃ t v, exec (.or rd rs rt) s = .next t ∧ RegWritten s t rd v ∧
    (∀ k < 32, v.getLsbD k = ((s.getReg rs).getLsbD k || (s.getReg rt).getLsbD k)) ∧
    t.pc = s.pc + 1 ∧ SameMem s t ∧ SameControl s t

/-- R135 XOR: bit by bit, all 32 bits. -/
def Obligations.XorRule : Prop :=
  (∀ w : Word, w &&& 0xFC00003F#32 = 0x00000026#32 →
    decode w = .ok (.xor (w.extractLsb' 11 5) (w.extractLsb' 21 5) (w.extractLsb' 16 5))) ∧
  ∀ (rd rs rt : RegIdx) (s : State), ∃ t v, exec (.xor rd rs rt) s = .next t ∧ RegWritten s t rd v ∧
    (∀ k < 32, v.getLsbD k = ((s.getReg rs).getLsbD k != (s.getReg rt).getLsbD k)) ∧
    t.pc = s.pc + 1 ∧ SameMem s t ∧ SameControl s t

/-! ### Shifts (R141 to R143) -/

/-- R141 SLL: `u(v) * 2^sa` modulo `2^32` (R13). -/
def Obligations.SllRule : Prop :=
  (∀ w : Word, w &&& 0xFC00003F#32 = 0x00000000#32 →
    decode w = .ok (.sll (w.extractLsb' 11 5) (w.extractLsb' 16 5) (w.extractLsb' 6 5))) ∧
  ∀ (rd rt : RegIdx) (sa : ShAmt) (s : State), ∃ t, exec (.sll rd rt sa) s = .next t ∧
    RegWritten s t rd (BitVec.ofNat 32 ((s.getReg rt).toNat * 2 ^ sa.toNat)) ∧
    t.pc = s.pc + 1 ∧ SameMem s t ∧ SameControl s t

/-- R142 SRL, the ARITHMETIC right shift: `floor(s(v) / 2^sa)` (R13). -/
def Obligations.SrlRule : Prop :=
  (∀ w : Word, w &&& 0xFC00003F#32 = 0x00000002#32 →
    decode w = .ok (.srl (w.extractLsb' 11 5) (w.extractLsb' 16 5) (w.extractLsb' 6 5))) ∧
  ∀ (rd rt : RegIdx) (sa : ShAmt) (s : State), ∃ t, exec (.srl rd rt sa) s = .next t ∧
    RegWritten s t rd (BitVec.ofInt 32 ((s.getReg rt).toInt / 2 ^ sa.toNat)) ∧
    t.pc = s.pc + 1 ∧ SameMem s t ∧ SameControl s t

/-- R143 SRA, the LOGICAL right shift: `floor(u(v) / 2^sa)` (R13). -/
def Obligations.SraRule : Prop :=
  (∀ w : Word, w &&& 0xFC00003F#32 = 0x00000003#32 →
    decode w = .ok (.sra (w.extractLsb' 11 5) (w.extractLsb' 16 5) (w.extractLsb' 6 5))) ∧
  ∀ (rd rt : RegIdx) (sa : ShAmt) (s : State), ∃ t, exec (.sra rd rt sa) s = .next t ∧
    RegWritten s t rd (BitVec.ofNat 32 ((s.getReg rt).toNat / 2 ^ sa.toNat)) ∧
    t.pc = s.pc + 1 ∧ SameMem s t ∧ SameControl s t

/-- R144: SRL and SRA differ exactly when bit 31 of the source is set and the amount is at least 1; for amount 0 all three
shifts copy the source. -/
def Obligations.ShiftLaws : Prop :=
  (∀ (rd rt : RegIdx) (sa : ShAmt) (s t u : State), rd ≠ 0 →
    exec (.srl rd rt sa) s = .next t → exec (.sra rd rt sa) s = .next u →
    (t.getReg rd ≠ u.getReg rd ↔ (s.getReg rt).getLsbD 31 = true ∧ 1 ≤ sa.toNat)) ∧
  ∀ (rd rt : RegIdx) (s t : State), rd ≠ 0 →
    (exec (.sll rd rt 0) s = .next t ∨ exec (.srl rd rt 0) s = .next t ∨ exec (.sra rd rt 0) s = .next t) →
    t.getReg rd = s.getReg rt

/-! ### Immediate ALU (R151 to R156) -/

/-- R151 ADDI: the exact sum of the register and the sign-extended immediate, modulo `2^32`. -/
def Obligations.AddiRule : Prop :=
  (∀ w : Word, w &&& 0xFC000000#32 = 0x20000000#32 →
    decode w = .ok (.addi (w.extractLsb' 16 5) (w.extractLsb' 21 5) ((w.extractLsb' 0 16).signExtend 32))) ∧
  ∀ (rt rs : RegIdx) (imm : Word) (s : State), ∃ t, exec (.addi rt rs imm) s = .next t ∧
    RegWritten s t rt (BitVec.ofInt 32 ((s.getReg rs).toInt + imm.toInt)) ∧
    t.pc = s.pc + 1 ∧ SameMem s t ∧ SameControl s t

/-- R152: the two readings of the logical immediate agree exactly on the slots whose bit 15 is clear; under `slot` bits
31..16 copy bit 15, under `zero` they are 0. -/
def Obligations.LogicImmReadings : Prop :=
  (∀ w : Word, logicImmUnder .slot (fieldImm w) = logicImmUnder .zero (fieldImm w) ↔ w.getLsbD 15 = false) ∧
  (∀ (w : Word) (k : Nat), k < 16 → (logicImmUnder .slot (fieldImm w)).getLsbD k = w.getLsbD k ∧
    (logicImmUnder .zero (fieldImm w)).getLsbD k = w.getLsbD k) ∧
  (∀ (w : Word) (k : Nat), 16 ≤ k → k < 32 → (logicImmUnder .slot (fieldImm w)).getLsbD k = w.getLsbD 15 ∧
    (logicImmUnder .zero (fieldImm w)).getLsbD k = false)

/-- ANDI. The operand is the decoded slot, the MODEL'S CHOICE (log entry 4, the spec's decision D3) where bit 15 of the word is
set; with that bit clear the two readings agree. -/
def Obligations.AndiRule : Prop :=
  (∀ w : Word, w &&& 0xFC000000#32 = 0x30000000#32 →
    decode w = .ok (.andi (w.extractLsb' 16 5) (w.extractLsb' 21 5) ((w.extractLsb' 0 16).signExtend 32))) ∧
  ∀ (rt rs : RegIdx) (imm : Word) (s : State), ∃ t v, exec (.andi rt rs imm) s = .next t ∧ RegWritten s t rt v ∧
    (∀ k < 32, v.getLsbD k = ((s.getReg rs).getLsbD k && imm.getLsbD k)) ∧
    t.pc = s.pc + 1 ∧ SameMem s t ∧ SameControl s t

/-- ORI. The operand is the decoded slot, the MODEL'S CHOICE (log entry 4, the spec's decision D3) where bit 15 of the word is
set. -/
def Obligations.OriRule : Prop :=
  (∀ w : Word, w &&& 0xFC000000#32 = 0x34000000#32 →
    decode w = .ok (.ori (w.extractLsb' 16 5) (w.extractLsb' 21 5) ((w.extractLsb' 0 16).signExtend 32))) ∧
  ∀ (rt rs : RegIdx) (imm : Word) (s : State), ∃ t v, exec (.ori rt rs imm) s = .next t ∧ RegWritten s t rt v ∧
    (∀ k < 32, v.getLsbD k = ((s.getReg rs).getLsbD k || imm.getLsbD k)) ∧
    t.pc = s.pc + 1 ∧ SameMem s t ∧ SameControl s t

/-- XORI. The operand is the decoded slot, the MODEL'S CHOICE (log entry 4, the spec's decision D3) where bit 15 of the word is
set. -/
def Obligations.XoriRule : Prop :=
  (∀ w : Word, w &&& 0xFC000000#32 = 0x38000000#32 →
    decode w = .ok (.xori (w.extractLsb' 16 5) (w.extractLsb' 21 5) ((w.extractLsb' 0 16).signExtend 32))) ∧
  ∀ (rt rs : RegIdx) (imm : Word) (s : State), ∃ t v, exec (.xori rt rs imm) s = .next t ∧ RegWritten s t rt v ∧
    (∀ k < 32, v.getLsbD k = ((s.getReg rs).getLsbD k != imm.getLsbD k)) ∧
    t.pc = s.pc + 1 ∧ SameMem s t ∧ SameControl s t

/-- R156 LUI: the low half of the immediate in bits 31..16, bits 15..0 are 0; the field `rs` is ignored on decode and encoded
as 0. -/
def Obligations.LuiRule : Prop :=
  (∀ w : Word, w &&& 0xFC000000#32 = 0x3C000000#32 →
    decode w = .ok (.lui (w.extractLsb' 16 5) ((w.extractLsb' 0 16).signExtend 32))) ∧
  (∀ (rt : RegIdx) (imm : Word), encode (.lui rt imm) &&& 0x03E00000#32 = 0) ∧
  ∀ (rt : RegIdx) (imm : Word) (s : State), ∃ t, exec (.lui rt imm) s = .next t ∧
    RegWritten s t rt (BitVec.ofNat 32 (imm.toNat % 2 ^ 16 * 2 ^ 16)) ∧
    t.pc = s.pc + 1 ∧ SameMem s t ∧ SameControl s t

/-! ### Loads and stores (R160 to R162) -/

/-- R160, R161 LW: the whole cell keyed by the register plus the immediate modulo `2^32`, whatever the key; memory is as it
was. -/
def Obligations.LwRule : Prop :=
  (∀ w : Word, w &&& 0xFC000000#32 = 0x8C000000#32 →
    decode w = .ok (.lw (w.extractLsb' 16 5) (w.extractLsb' 21 5) ((w.extractLsb' 0 16).signExtend 32))) ∧
  ∀ (rt rs : RegIdx) (imm : Word) (s : State), ∃ t, exec (.lw rt rs imm) s = .next t ∧
    RegWritten s t rt (s.memRead (BitVec.ofInt 32 ((s.getReg rs).toInt + imm.toInt))) ∧
    t.pc = s.pc + 1 ∧ SameMem s t ∧ SameControl s t

/-- R160, R162 SW: the one cell keyed by the effective address is replaced, every other cell, the neighbours among them, reads
as before, and no register is written. -/
def Obligations.SwRule : Prop :=
  (∀ w : Word, w &&& 0xFC000000#32 = 0xAC000000#32 →
    decode w = .ok (.sw (w.extractLsb' 16 5) (w.extractLsb' 21 5) ((w.extractLsb' 0 16).signExtend 32))) ∧
  ∀ (rt rs : RegIdx) (imm : Word) (s : State), ∃ t, exec (.sw rt rs imm) s = .next t ∧
    s.effectiveAddress rs imm = BitVec.ofInt 32 ((s.getReg rs).toInt + imm.toInt) ∧
    CellWritten s t (s.effectiveAddress rs imm) (s.getReg rt) ∧
    t.pc = s.pc + 1 ∧ SameRegs s t ∧ SameControl s t

/-! ### Control transfer (R171 to R176) -/

/-- R171 BEQ: taken, to `pc0 + 1 + imm` modulo `2^32`; else to `pc0 + 1`; nothing else changes. -/
def Obligations.BeqRule : Prop :=
  (∀ w : Word, w &&& 0xFC000000#32 = 0x10000000#32 →
    decode w = .ok (.beq (w.extractLsb' 21 5) (w.extractLsb' 16 5) ((w.extractLsb' 0 16).signExtend 32))) ∧
  ∀ (rs rt : RegIdx) (imm : Word) (s : State), ∃ t, exec (.beq rs rt imm) s = .next t ∧
    (s.getReg rs = s.getReg rt → t.pc = BitVec.ofInt 32 (s.pc.toInt + 1 + imm.toInt)) ∧
    (s.getReg rs ≠ s.getReg rt → t.pc = s.pc + 1) ∧
    SameRegs s t ∧ SameMem s t ∧ SameControl s t

/-- R172 BNE: taken, to `pc0 + 1 + imm` modulo `2^32`; else to `pc0 + 1`; nothing else changes. -/
def Obligations.BneRule : Prop :=
  (∀ w : Word, w &&& 0xFC000000#32 = 0x14000000#32 →
    decode w = .ok (.bne (w.extractLsb' 21 5) (w.extractLsb' 16 5) ((w.extractLsb' 0 16).signExtend 32))) ∧
  ∀ (rs rt : RegIdx) (imm : Word) (s : State), ∃ t, exec (.bne rs rt imm) s = .next t ∧
    (s.getReg rs ≠ s.getReg rt → t.pc = BitVec.ofInt 32 (s.pc.toInt + 1 + imm.toInt)) ∧
    (s.getReg rs = s.getReg rt → t.pc = s.pc + 1) ∧
    SameRegs s t ∧ SameMem s t ∧ SameControl s t

/-- J: the net effect of the formula of R173. For an address `0..2^25-1`, where the two readings of the division agree: the
top four bits of `pc0 + 1` and the address below them. For a negative address: the address itself, by the MODEL'S CHOICE of the
signed division (log entry 6, the spec's decision D5). -/
def Obligations.JRule : Prop :=
  (∀ w : Word, w &&& 0xFC000000#32 = 0x08000000#32 → decode w = .ok (.j ((w.extractLsb' 0 26).signExtend 32))) ∧
  ∀ (addr : Word) (s : State), ∃ t, exec (.j addr) s = .next t ∧
    (0 ≤ addr.toInt → addr.toInt < 2 ^ 25 →
      t.pc.toNat = (s.pc + 1#32).toNat / 2 ^ 28 * 2 ^ 28 + addr.toNat ∧
      jumpIndexUnder .signed addr = jumpIndexUnder .unsigned addr) ∧
    (-(2 ^ 25) ≤ addr.toInt → addr.toInt < 0 → t.pc = addr) ∧
    SameRegs s t ∧ SameMem s t ∧ SameControl s t

/-- JAL: register 31 is linked to `pc0 + 1`, and the PC is set as by J with the same `pc0` and `addr` (R174; for a negative
address the MODEL'S CHOICE of log entry 6, the spec's decision D5). -/
def Obligations.JalRule : Prop :=
  (∀ w : Word, w &&& 0xFC000000#32 = 0x0C000000#32 → decode w = .ok (.jal ((w.extractLsb' 0 26).signExtend 32))) ∧
  ∀ (addr : Word) (s : State), ∃ t u, exec (.jal addr) s = .next t ∧ exec (.j addr) s = .next u ∧ t.pc = u.pc ∧
    RegWritten s t 31 (s.pc + 1) ∧ SameMem s t ∧ SameControl s t

/-- R175 JR: the PC is the raw register value; nothing else changes; the fields `rt`, `rd`, `sa` are ignored on decode and
encoded as 0. -/
def Obligations.JrRule : Prop :=
  (∀ w : Word, w &&& 0xFC00003F#32 = 0x00000008#32 → decode w = .ok (.jr (w.extractLsb' 21 5))) ∧
  (∀ rs : RegIdx, encode (.jr rs) &&& 0x001FFFC0#32 = 0) ∧
  ∀ (rs : RegIdx) (s : State), ∃ t, exec (.jr rs) s = .next t ∧ t.pc = s.getReg rs ∧
    SameRegs s t ∧ SameMem s t ∧ SameControl s t

/-- R176, by the MODEL'S CHOICE of JR for the fallback (log entry 5, the spec's decision D4): it completes as JR does. -/
def Obligations.JrFallbackRule : Prop :=
  ∀ (rs : RegIdx) (s : State), ∃ t, exec (.jrFallback rs) s = .next t ∧ exec (.jr rs) s = .next t ∧
    t.pc = s.getReg rs ∧ SameRegs s t ∧ SameMem s t ∧ SameControl s t

/-- R26: how each instruction sets the PC. The J and JAL row is stated for the slots a decoded word can hold; for a negative
address it rests on the signed division, the MODEL'S CHOICE of log entry 6 (R173, the spec's decision D5). The row of the
fallback rests on its being JR, the MODEL'S CHOICE of log entry 5 (the spec's decision D4). -/
def Obligations.PcTable : Prop :=
  ∀ (i : Instr) (s t : State), i.wf = true → exec i s = .next t →
    t.pc =
      match i with
      | .beq rs rt imm => if s.getReg rs = s.getReg rt then s.pc + 1 + imm else s.pc + 1
      | .bne rs rt imm => if s.getReg rs ≠ s.getReg rt then s.pc + 1 + imm else s.pc + 1
      | .j addr => ((s.pc + 1) &&& 0xF0000000) ||| addr
      | .jal addr => ((s.pc + 1) &&& 0xF0000000) ||| addr
      | .jr rs => s.getReg rs
      | .jrFallback rs => s.getReg rs
      | .add _ _ _ | .sub _ _ _ | .and _ _ _ | .or _ _ _ | .xor _ _ _ => s.pc + 1
      | .sll _ _ _ | .srl _ _ _ | .sra _ _ _ => s.pc + 1
      | .addi _ _ _ | .andi _ _ _ | .ori _ _ _ | .xori _ _ _ | .lui _ _ => s.pc + 1
      | .lw _ _ _ | .sw _ _ _ => s.pc + 1

/-- R105, R171, C2: a branch at step `s` assembled to a label at step `k`, the displacement fitting 16 bits, lands on the
label when it is taken. -/
def Obligations.BranchReachesLabel : Prop :=
  ∀ (rs rt : RegIdx) (k n : Nat) (s : State), -32768 ≤ (k : Int) - 1 - n → (k : Int) - 1 - n ≤ 32767 →
    s.pc = BitVec.ofNat 32 n →
    (s.getReg rs = s.getReg rt → ∃ i t, decode (encode (.beq rs rt (branchDisplacement k n))) = .ok i ∧
      exec i s = .next t ∧ t.pc = BitVec.ofNat 32 k) ∧
    (s.getReg rs ≠ s.getReg rt → ∃ i t, decode (encode (.bne rs rt (branchDisplacement k n))) = .ok i ∧
      exec i s = .next t ∧ t.pc = BitVec.ofNat 32 k)

/-! ### The whole machine -/

/-- R193: every instruction, in every state, completes. -/
def Obligations.EveryInstructionCompletes : Prop :=
  ∀ (i : Instr) (s : State), ∃ t, exec i s = .next t

/-- R23: register 0 reads 0 at reset, after every step, and in the host's view. -/
def Obligations.RegisterZero : Prop :=
  State.reset.getReg 0 = 0 ∧
  (∀ s t : State, step s = .next t → t.getReg 0 = 0) ∧
  (∀ (s : State) (v : Vector Word 32), hostGetRegfile s = .ok v → v[0] = 0)

/-- R34 (a): the storage slot of register 0 cannot be observed: whatever is put there, a step does the same, and the host
reads the same registers. -/
def Obligations.SlotZeroUnobservable : Prop :=
  ∀ (s : State) (x : Word),
    (∀ t, step s = .next t → ∃ u, step (s.withSlotZero x) = .next u ∧
      SameRegs t u ∧ t.pc = u.pc ∧ t.mem = u.mem ∧ SameControl t u) ∧
    (∀ r, step s = .fault r → step (s.withSlotZero x) = .fault r) ∧
    (∀ r, step s = .refused r → step (s.withSlotZero x) = .refused r) ∧
    hostGetRegfile (s.withSlotZero x) = hostGetRegfile s

/-- R24, the column "writes": a register that an instruction changes is its destination, and SW, BEQ, BNE, J, JR and the
fallback change none. -/
def Obligations.OnlyDestinationWritten : Prop :=
  ∀ (i : Instr) (s t : State) (r : RegIdx), exec i s = .next t → t.getReg r ≠ s.getReg r →
    r ≠ 0 ∧
    match i with
    | .add rd _ _ | .sub rd _ _ | .and rd _ _ | .or rd _ _ | .xor rd _ _ => r = rd
    | .sll rd _ _ | .srl rd _ _ | .sra rd _ _ => r = rd
    | .addi rt _ _ | .andi rt _ _ | .ori rt _ _ | .xori rt _ _ | .lui rt _ | .lw rt _ _ => r = rt
    | .jal _ => r = 31
    | .sw _ _ _ | .beq _ _ _ | .bne _ _ _ | .j _ | .jr _ | .jrFallback _ => False

/-- R58, R52: the only instruction that changes a cell of data memory is SW, and the only cell it changes is the one keyed by
its effective address. -/
def Obligations.OnlyStoreWritesMemory : Prop :=
  ∀ (i : Instr) (s t : State) (a : Word), exec i s = .next t → t.memRead a ≠ s.memRead a →
    ∃ rt rs imm, i = .sw rt rs imm ∧ a = s.effectiveAddress rs imm ∧ t.memRead a = s.getReg rt

/-- R67, R35: no step changes the instruction list, so no store reaches a later fetch, and no step writes `kill` or forgets
that a program is loaded. -/
def Obligations.ProgramAndKillUntouched : Prop :=
  ∀ s t : State, step s = .next t → t.insts = s.insts ∧ t.kill = s.kill ∧ t.loaded = s.loaded

/-- R30 (the delay of `kill` in the form of log entry 9): with the PC on an index of the program and `kill` clear, a step of a running machine is the execution of the
instruction the program holds there. With `kill` set, either it is seen and the status becomes `Killed`, or it is not and the
step is the same execution, the model having counted one more such boundary. -/
def Obligations.StepRunsInstruction : Prop :=
  ∀ (s : State) (i : Instr), s.status = .running → s.insts[s.pc.toNat]? = some i →
    s.pc.toInt = s.pc.toNat →
    (s.kill = false → step s = exec i s) ∧
    (s.kill = true → step s = .next { s with status := .killed } ∨
      step s = exec i { s with killAge := s.killAge + 1 })

/-- A word that decodes, placed where the next step fetches, is what the next step runs. -/
def Obligations.FetchedWordRuns : Prop :=
  ∀ (s : State) (nbits w : Nat) (i : Instr), decodeTableWord nbits w = some i →
    step (s.withFetchWord nbits w) = exec i (s.withFetchWord nbits w) ∧
    SameRegs s (s.withFetchWord nbits w) ∧ SameMem s (s.withFetchWord nbits w)

/-- R30, R198: the outcome of a boundary of a running machine at the end of the program or out of range, and where `kill` is
seen. The two stops that R198 (d) and (e) leave open are both admitted (log entry 10). Registers, memory and PC keep their
values. That a stop is a step to a new status is the MODEL'S CHOICE of log entry 12 (the spec's decision D14). -/
def Obligations.BoundaryStops : Prop :=
  ∀ s : State, s.status = .running →
    (s.killIsSeen = false → s.pc.toInt = s.programLength → step s = .next { s with status := .halted }) ∧
    (s.killIsSeen = false → s.pcOutOfRange → step s = .next { s with status := .faulted s.pc }) ∧
    (s.killIsSeen = true → 0 ≤ s.pc.toInt → s.pc.toInt < s.programLength →
      step s = .next { s with status := .killed }) ∧
    (s.killIsSeen = true → s.pc.toInt = s.programLength →
      step s = .next { s with status := .killed } ∨ step s = .next { s with status := .halted }) ∧
    (s.killIsSeen = true → s.pcOutOfRange →
      step s = .next { s with status := .killed } ∨ step s = .next { s with status := .faulted s.pc })

/-- R194: `Simulation` is raised at a boundary whose PC is below 0 or above `N`; it records the message and the PC, keeps
registers, memory and PC, and the host reads that PC afterwards (status and fault as two steps: the MODEL'S CHOICE of log
entry 12, the spec's decision D14). Only BEQ, BNE, J, JAL, JR and the fallback can lead from a
valid index to such a PC. -/
def Obligations.SimulationFault : Prop :=
  (∀ s : State, s.status = .running → s.killIsSeen = false → s.pcOutOfRange →
    ∃ t, step s = .next t ∧ t = { s with status := .faulted s.pc } ∧ step t = .fault (.simulation s.pc) ∧
      (Fault.simulation s.pc).message = "No instructions here" ∧ hostGetPc t = .ok s.pc) ∧
  ∀ (i : Instr) (s t : State), s.programLength < 2 ^ 31 → 0 ≤ s.pc.toInt → s.pc.toInt < s.programLength →
    exec i s = .next t → t.pcOutOfRange →
    match i with
    | .beq _ _ _ | .bne _ _ _ | .j _ | .jal _ | .jr _ | .jrFallback _ => True
    | .add _ _ _ | .sub _ _ _ | .and _ _ _ | .or _ _ _ | .xor _ _ _ => False
    | .sll _ _ _ | .srl _ _ _ | .sra _ _ _ => False
    | .addi _ _ _ | .andi _ _ _ | .ori _ _ _ | .xori _ _ _ | .lui _ _ => False
    | .lw _ _ _ | .sw _ _ _ => False

/-- R36, R200: from the three final statuses, and before `run`, no step follows, and no move of the host leaves a final
status (the MODEL'S CHOICE of log entries 12 and 23, the spec's decisions D14 and D19). -/
def Obligations.FinalStatuses : Prop :=
  (∀ s t : State, step s = .next t → s.status = .running) ∧
  (∀ (m : HostMove) (s t : State), (s.status = .halted ∨ s.status = .killed ∨ ∃ p, s.status = .faulted p) →
    hostMove m s = .next t → t.status = s.status)

/-- R35, R197: `kill` stops the run within a bounded number of further instructions: a chain of steps that starts running with
`kill` set and still runs at its end is no longer than what is left of the bound. -/
def Obligations.KillStopsRun : Prop :=
  ∀ (n : Nat) (run : Nat → State), (∀ k < n, step (run k) = .next (run (k + 1))) →
    (run 0).status = .running → (run 0).kill = true → (run 0).killAge ≤ Config.killBound →
    (run n).status = .running → n + (run 0).killAge ≤ Config.killBound

/-- Every step keeps the invariant: canonical memory (R50, R51), a program of fewer than `2^31` decoded instructions (R7, R33),
a status that tells the truth (R36), and `kill` unseen no longer than its bound (R35). -/
def Obligations.StepKeepsInv : Prop :=
  ∀ s t : State, Inv s → step s = .next t → Inv t

/-- The invariant holds at reset. -/
def Obligations.ResetInv : Prop := Inv State.reset

/-- Every move of the host keeps the invariant. -/
def Obligations.HostKeepsInv : Prop :=
  ∀ (m : HostMove) (s t : State), Inv s → hostMove m s = .next t → Inv t

/-- R37, R51: what reset leaves. The source's own are the first two clauses, register 0 and every cell read 0. The MODEL'S
CHOICE are the others: the empty program is the spec's decision D7 (log entry 13), the field `loaded` is the model's (log entry
15), the status `Idle` is the spec's decision D14 (log entry 12). -/
def Obligations.ResetState : Prop :=
  State.reset.getReg 0 = 0 ∧ (∀ a, State.reset.memRead a = 0) ∧ State.reset.insts = [] ∧
    State.reset.programLength = 0 ∧ State.reset.loaded = false ∧ State.reset.status = .idle

/-- The values of reset that are the MODEL'S CHOICE: registers 1 to 31 are 0 (log entry 1, the spec's decision D1), `kill` is
false (log entry 3, D10), the PC is 0 before `run` (log entry 2). -/
def Obligations.ResetChoices : Prop :=
  (∀ r, State.reset.getReg r = 0) ∧ State.reset.kill = false ∧ State.reset.pc = 0

/-! ### The host (R192, R222) -/

/-- R222: while the run is in progress the host's one move is setting `kill`, which changes nothing else; setting it is
allowed at any time. -/
def Obligations.HostDuringRun : Prop :=
  (∀ (m : HostMove) (s t : State), s.status = .running → hostMove m s = .next t →
    m = .setKill ∧ t = { s with kill := true }) ∧
  (∀ s : State, hostMove .setKill s = .next { s with kill := true }) ∧
  (∀ (s : State) (a : Word), s.status = .running →
    hostGetMemory a s = .error .runInProgress ∧ hostGetRegfile s = .error .runInProgress ∧
      hostGetPc s = .error .runInProgress)

/-- R222, R221, in the form of log entry 23 (the spec's decision D12): outside a run `setMemory` replaces one cell and
`getMemory` reads it; `run` starts an idle machine with a program loaded at PC 0, and nothing else; and in every status but
`Running` the host reads all 32 registers, the PC and every cell as they are. -/
def Obligations.HostOutsideRun : Prop :=
  (∀ (s : State) (a v : Word), s.status ≠ .running → ∃ t, hostMove (.setMemory a v) s = .next t ∧
    CellWritten s t a v ∧ hostGetMemory a t = .ok v ∧ SameRegs s t ∧ t.pc = s.pc ∧ SameControl s t) ∧
  (∀ s : State, s.status = .idle → s.loaded = true →
    hostMove .run s = .next { s with status := .running, pc := 0 }) ∧
  (∀ s t : State, hostMove .run s = .next t → s.status = .idle ∧ s.loaded = true) ∧
  (∀ s : State, s.status ≠ .running →
    (∃ v, hostGetRegfile s = .ok v ∧ ∀ r : RegIdx, v[r.toNat]? = some (s.getReg r)) ∧
    hostGetPc s = .ok s.pc ∧ ∀ a : Word, hostGetMemory a s = .ok (s.memRead a))

/-- R84, R192: loading words is all or nothing. If every word decodes, the list holds, in order, what each decodes to, and
nothing else changes; if some word does not, the load is refused with the first such word and its position, from 0 (the MODEL'S
CHOICE of log entry 18). A load succeeds only in `Idle` with nothing loaded (log entry 13). -/
def Obligations.LoadAllOrNothing : Prop :=
  (∀ (ws : List Word) (s : State), s.status = .idle → s.loaded = false → ws.length < 2 ^ 31 →
    (∃ is, hostMove (.load ws) s = .next { s with insts := is, loaded := true } ∧ is.length = ws.length ∧
      ∀ (k : Nat) (w : Word), ws[k]? = some w → ∃ i, is[k]? = some i ∧ decode w = .ok i) ∨
    (∃ (k : Nat) (w : Word), hostMove (.load ws) s = .refused (.invalidInstruction w k) ∧ ws[k]? = some w ∧
      (∀ i, decode w ≠ .ok i) ∧ ∀ j < k, ∃ v i, ws[j]? = some v ∧ decode v = .ok i)) ∧
  (∀ (ws : List Word) (s t : State), hostMove (.load ws) s = .next t → s.status = .idle ∧ s.loaded = false)

/-! ### The hexadecimal form of a word and the image (R83, R90, R109, R110) -/

/-- R90: the hexadecimal form of a word, so of every encoded instruction, has 8 characters, all lower-case hexadecimal digits,
and they spell the word: it is read back from them (R83). -/
def Obligations.HexWordForm : Prop :=
  ∀ w : Word, (hexWord w).length = 8 ∧
    (∀ c ∈ hexWord w, c ∈ ['0', '1', '2', '3', '4', '5', '6', '7', '8', '9', 'a', 'b', 'c', 'd', 'e', 'f']) ∧
    parseHexWord (hexWord w) = some w

/-- R109, R110: the loader reads from the image of a program, as the assembler writes it, the instructions of its words. -/
def Obligations.ImageReadBack : Prop :=
  ∀ (ws : List Word) (is : List Instr), decodeAll 0 ws = .ok is → decodeImage (image ws) = .ok is

/-- R110, R192, R222: the host's load of an image text is all or nothing. In `Idle` with nothing loaded: a text whose
instructions the loader reads becomes the program, so the image of words that decode becomes the program of those words, and
nothing else changes. A text the loader refuses is refused with the loader's error: after the image of words that decode, a line
of a word that does not decode is `InvalidInstruction` with its hexadecimal text, and a non-empty line that does not match the
pattern is `Syntax("Invalid format")`; both carry that line, counted from 1 (the MODEL'S CHOICE of log entry 18). In any other
status, or with a program loaded, no image is loaded (log entry 13). -/
def Obligations.HostLoadImage : Prop :=
  (∀ (text : Text) (is : List Instr) (s : State), s.status = .idle → s.loaded = false → is.length < 2 ^ 31 →
    decodeImage text = .ok is → hostMove (.loadImage text) s = .next { s with insts := is, loaded := true }) ∧
  (∀ (ws : List Word) (is : List Instr) (s : State), s.status = .idle → s.loaded = false → is.length < 2 ^ 31 →
    decodeAll 0 ws = .ok is → hostMove (.loadImage (image ws)) s = .next { s with insts := is, loaded := true }) ∧
  (∀ (text : Text) (e : SourceError) (s : State), s.status = .idle → decodeImage text = .error e →
    hostMove (.loadImage text) s = .refused (.imageRefused e)) ∧
  (∀ (ws : List Word) (is : List Instr) (w : Word) (rest : Text), decodeAll 0 ws = .ok is → (∀ i, decode w ≠ .ok i) →
    decodeImage (image ws ++ imageLine ws.length w ++ '\n' :: rest) =
      .error (.invalidInstruction (hexWord w) (ws.length + 1))) ∧
  (∀ (ws : List Word) (is : List Instr) (line rest : Text), decodeAll 0 ws = .ok is → line ≠ [] → '\n' ∉ line →
    imageLineWord line = none → ∃ col, decodeImage (image ws ++ line ++ '\n' :: rest) =
      .error (.badSyntax .invalidFormat (some (ws.length + 1)) col)) ∧
  (∀ (text : Text) (s t : State), hostMove (.loadImage text) s = .next t → s.status = .idle ∧ s.loaded = false)

/-! ### Assembler and disassembler (R92, R95 to R108) -/

/-- R92, R108: the assembler reads from the disassembler's text of well-formed instructions the words of those instructions;
and reassembling the disassembly of what a source text assembles to gives the same words. -/
def Obligations.ReassembleDisassembly : Prop :=
  (∀ is : List Instr, (∀ i ∈ is, i.wf = true) → assemble (disassemble is) = .ok (is.map encode)) ∧
  ∀ (source : Text) (ws : List Word), assemble source = .ok ws →
    ∃ is, decodeAll 0 ws = .ok is ∧ assemble (disassemble is) = .ok ws
end

