-- ==== Sys2Proof/Laws/Decode.lean ====
section
/-! SUPPORT. The fields of a word seen through masks and through the encoder, and the ranges of the extended fields
(spec/30_encoding.md R71 to R76, R88; spec/00_scope.md R12). -/

namespace Sys2Proof

/-! ### A word's selecting bits -/

/-- The opcode bits of a word, put back in place. -/
theorem and_opcodeMask (w : Word) : w &&& 0xFC000000#32 = place 26 (fieldOpcode w) := by
  apply BitVec.eq_of_getLsbD_eq
  intro k hk
  simp only [place, fieldOpcode, BitVec.getLsbD_and, BitVec.getLsbD_shiftLeft, BitVec.getLsbD_setWidth,
    BitVec.getLsbD_extractLsb']
  interval_cases k <;> simp

/-- The opcode and function code bits of a word, put back in place. -/
theorem and_functMask (w : Word) :
    w &&& 0xFC00003F#32 = place 26 (fieldOpcode w) ||| place 0 (fieldFunct w) := by
  apply BitVec.eq_of_getLsbD_eq
  intro k hk
  simp only [place, fieldOpcode, fieldFunct, BitVec.getLsbD_and, BitVec.getLsbD_or, BitVec.getLsbD_shiftLeft,
    BitVec.getLsbD_setWidth, BitVec.getLsbD_extractLsb']
  interval_cases k <;> simp

/-- The fields of a word made of an opcode and a function code. -/
theorem fields_place (a b : BitVec 6) :
    fieldOpcode (place 26 a ||| place 0 b) = a ∧ fieldFunct (place 26 a ||| place 0 b) = b := by
  constructor <;> apply BitVec.eq_of_getLsbD_eq <;> intro k hk <;>
    simp only [place, fieldOpcode, fieldFunct, BitVec.getLsbD_or, BitVec.getLsbD_shiftLeft, BitVec.getLsbD_setWidth,
      BitVec.getLsbD_extractLsb'] <;>
    interval_cases k <;> simp

/-- The opcode of a word made of an opcode alone. -/
theorem opcode_place (a : BitVec 6) : fieldOpcode (place 26 a) = a := by
  have h := (fields_place a 0#6).1
  simpa [place] using h

/-! ### The fields of the encoder's words -/

/-- The fields of a word of format R (R71, R88). -/
theorem fields_encodeR {k : Kind} (h : k.format = .r) (s : Slots) :
    fieldOpcode (encodeSlots k s) = k.opcode ∧ fieldRs (encodeSlots k s) = s.rs ∧
    fieldRt (encodeSlots k s) = s.rt ∧ fieldRd (encodeSlots k s) = s.rd ∧
    fieldSa (encodeSlots k s) = s.sa ∧ fieldFunct (encodeSlots k s) = k.funct := by
  unfold encodeSlots
  rw [h]
  refine ⟨?_, ?_, ?_, ?_, ?_, ?_⟩ <;> apply BitVec.eq_of_getLsbD_eq <;> intro n hn <;>
    simp only [place, fieldOpcode, fieldRs, fieldRt, fieldRd, fieldSa, fieldFunct, BitVec.getLsbD_or,
      BitVec.getLsbD_shiftLeft, BitVec.getLsbD_setWidth, BitVec.getLsbD_extractLsb'] <;>
    interval_cases n <;> simp

/-- The fields of a word of format I (R72, R88): the immediate slot truncated and extended again (R89, R75). -/
theorem fields_encodeI {k : Kind} (h : k.format = .i) (s : Slots) :
    fieldOpcode (encodeSlots k s) = k.opcode ∧ fieldRs (encodeSlots k s) = s.rs ∧
    fieldRt (encodeSlots k s) = s.rt ∧ fieldImm (encodeSlots k s) = sext16 s.immediate := by
  unfold encodeSlots
  rw [h]
  refine ⟨?_, ?_, ?_, ?_⟩
  · apply BitVec.eq_of_getLsbD_eq
    intro n hn
    simp only [place, fieldOpcode, BitVec.getLsbD_or, BitVec.getLsbD_and,
      BitVec.getLsbD_shiftLeft, BitVec.getLsbD_setWidth, BitVec.getLsbD_extractLsb']
    interval_cases n <;> simp
  · apply BitVec.eq_of_getLsbD_eq
    intro n hn
    simp only [place, fieldRs, BitVec.getLsbD_or, BitVec.getLsbD_and,
      BitVec.getLsbD_shiftLeft, BitVec.getLsbD_setWidth, BitVec.getLsbD_extractLsb']
    interval_cases n <;> simp
  · apply BitVec.eq_of_getLsbD_eq
    intro n hn
    simp only [place, fieldRt, BitVec.getLsbD_or, BitVec.getLsbD_and,
      BitVec.getLsbD_shiftLeft, BitVec.getLsbD_setWidth, BitVec.getLsbD_extractLsb']
    interval_cases n <;> simp
  · unfold fieldImm sext16
    congr 1
    apply BitVec.eq_of_getLsbD_eq
    intro n hn
    simp only [place, BitVec.getLsbD_or, BitVec.getLsbD_and,
      BitVec.getLsbD_shiftLeft, BitVec.getLsbD_setWidth, BitVec.getLsbD_extractLsb']
    interval_cases n <;> simp

/-- The fields of a word of format J (R73, R88): the address slot truncated and extended again (R89, R76). -/
theorem fields_encodeJ {k : Kind} (h : k.format = .j) (s : Slots) :
    fieldOpcode (encodeSlots k s) = k.opcode ∧ fieldAddr (encodeSlots k s) = sext26 s.address := by
  unfold encodeSlots
  rw [h]
  refine ⟨?_, ?_⟩
  · apply BitVec.eq_of_getLsbD_eq
    intro n hn
    simp only [place, fieldOpcode, BitVec.getLsbD_or, BitVec.getLsbD_and,
      BitVec.getLsbD_shiftLeft, BitVec.getLsbD_setWidth, BitVec.getLsbD_extractLsb']
    interval_cases n <;> simp
  · unfold fieldAddr sext26
    congr 1
    apply BitVec.eq_of_getLsbD_eq
    intro n hn
    simp only [place, BitVec.getLsbD_or, BitVec.getLsbD_and,
      BitVec.getLsbD_shiftLeft, BitVec.getLsbD_setWidth, BitVec.getLsbD_extractLsb']
    interval_cases n <;> simp

/-! ### Ranges of the extended fields -/

theorem immInRange_sext16 (v : Word) : immInRange (sext16 v) = true := by
  unfold immInRange sext16
  rw [decide_eq_true_eq, BitVec.toInt_signExtend_of_le (by decide)]
  have h1 := BitVec.le_toInt (v.extractLsb' 0 16)
  have h2 := BitVec.toInt_lt (x := v.extractLsb' 0 16)
  omega

theorem addrInRange_sext26 (v : Word) : addrInRange (sext26 v) = true := by
  unfold addrInRange sext26
  rw [decide_eq_true_eq, BitVec.toInt_signExtend_of_le (by decide)]
  have h1 := BitVec.le_toInt (v.extractLsb' 0 26)
  have h2 := BitVec.toInt_lt (x := v.extractLsb' 0 26)
  omega

/-- Extension leaves a value of the 16-bit field's range as it is. -/
theorem sext16_of_inRange {v : Word} (h : immInRange v = true) : sext16 v = v := by
  unfold immInRange at h
  rw [decide_eq_true_eq] at h
  apply BitVec.eq_of_toInt_eq
  unfold sext16
  rw [BitVec.toInt_signExtend_of_le (by decide), BitVec.toInt_eq_toNat_bmod, BitVec.extractLsb'_toNat]
  rw [BitVec.toInt_eq_toNat_cond] at h ⊢
  have := v.isLt
  simp only [Nat.shiftRight_zero, Int.bmod]
  split at h <;> omega

/-- Extension leaves a value of the 26-bit field's range as it is. -/
theorem sext26_of_inRange {v : Word} (h : addrInRange v = true) : sext26 v = v := by
  unfold addrInRange at h
  rw [decide_eq_true_eq] at h
  apply BitVec.eq_of_toInt_eq
  unfold sext26
  rw [BitVec.toInt_signExtend_of_le (by decide), BitVec.toInt_eq_toNat_bmod, BitVec.extractLsb'_toNat]
  rw [BitVec.toInt_eq_toNat_cond] at h ⊢
  have := v.isLt
  simp only [Nat.shiftRight_zero, Int.bmod]
  split at h <;> omega

/-! ### What the decoder can answer -/

/-- The kinds under opcode 0 are those of format R, with their function codes. -/
theorem kindOfFunct_eq_some (f : BitVec 6) (k : Kind) :
    kindOfFunct f = some k ↔ k.format = .r ∧ f = k.funct := by
  revert f; cases k <;> decide

/-- The kinds of the other opcodes are those of formats I and J. -/
theorem kindOfOpcode_eq_some (o : BitVec 6) (k : Kind) :
    kindOfOpcode o = some k ↔ k.format ≠ .r ∧ o = k.opcode := by
  revert o; cases k <;> decide

/-- The kind a word is of by opcode and function code. -/
theorem assignedKind_eq_some (w : Word) (k : Kind) :
    assignedKind w = some k ↔ fieldOpcode w = k.opcode ∧ (k.format = .r → fieldFunct w = k.funct) := by
  unfold assignedKind
  split
  · rename_i h
    rw [kindOfFunct_eq_some, h]
    cases k <;> simp [Kind.format, Kind.opcode, Kind.funct]
  · rename_i h
    rw [kindOfOpcode_eq_some]
    cases k <;> simp_all [Kind.format, Kind.opcode]

/-- The kind of an instruction filled from a word. -/
theorem kind_fillSlots (k : Kind) (w : Word) : (fillSlots k w).kind = k := by cases k <;> rfl

/-- Everything `decode` can answer. -/
theorem decode_cases (w : Word) :
    (∃ k, assignedKind w = some k ∧ decode w = .ok (fillSlots k w)) ∨
    (assignedKind w = none ∧ fieldOpcode w = 0#6 ∧ decode w = .ok (.jrFallback (fieldRs w))) ∨
    (assignedKind w = none ∧ fieldOpcode w ≠ 0#6 ∧ decode w = .error (.invalidInstruction w)) := by
  unfold decode
  cases h : assignedKind w with
  | some k => exact .inl ⟨k, rfl, rfl⟩
  | none =>
    by_cases h0 : fieldOpcode w = 0#6
    · exact .inr (.inl ⟨rfl, h0, by rw [if_pos h0]; rfl⟩)
    · exact .inr (.inr ⟨rfl, h0, by rw [if_neg h0]⟩)

end Sys2Proof
end

