-- ==== Sys2Proof/Laws/State.lean ====
section
/-! SUPPORT. The fields of State after each of its updates: one lemma per field and update, each true by computation, so that
no later proof unfolds a record update. -/

namespace Sys2Proof.Machine

variable (s : State)

/-! ### `setReg` -/

@[simp] theorem State.setReg_regs (i : RegIdx) (v : Word) : (s.setReg i v).regs = if i = 0#5 then s.regs else s.regs.set i.toNat v := rfl

@[simp] theorem State.setReg_pc (i : RegIdx) (v : Word) : (s.setReg i v).pc = s.pc := rfl

@[simp] theorem State.setReg_mem (i : RegIdx) (v : Word) : (s.setReg i v).mem = s.mem := rfl

@[simp] theorem State.setReg_insts (i : RegIdx) (v : Word) : (s.setReg i v).insts = s.insts := rfl

@[simp] theorem State.setReg_loaded (i : RegIdx) (v : Word) : (s.setReg i v).loaded = s.loaded := rfl

@[simp] theorem State.setReg_kill (i : RegIdx) (v : Word) : (s.setReg i v).kill = s.kill := rfl

@[simp] theorem State.setReg_status (i : RegIdx) (v : Word) : (s.setReg i v).status = s.status := rfl

@[simp] theorem State.setReg_killAge (i : RegIdx) (v : Word) : (s.setReg i v).killAge = s.killAge := rfl

@[simp] theorem State.setReg_memRead (i : RegIdx) (v : Word) (k : Word) : (s.setReg i v).memRead k = s.memRead k := rfl

@[simp] theorem State.setReg_programLength (i : RegIdx) (v : Word) : (s.setReg i v).programLength = s.programLength := rfl

@[simp] theorem State.setReg_nextPc (i : RegIdx) (v : Word) : (s.setReg i v).nextPc = s.nextPc := rfl

/-! ### `setPc` -/

@[simp] theorem State.setPc_regs (t : Word) : (s.setPc t).regs = s.regs := rfl

@[simp] theorem State.setPc_pc (t : Word) : (s.setPc t).pc = t := rfl

@[simp] theorem State.setPc_mem (t : Word) : (s.setPc t).mem = s.mem := rfl

@[simp] theorem State.setPc_insts (t : Word) : (s.setPc t).insts = s.insts := rfl

@[simp] theorem State.setPc_loaded (t : Word) : (s.setPc t).loaded = s.loaded := rfl

@[simp] theorem State.setPc_kill (t : Word) : (s.setPc t).kill = s.kill := rfl

@[simp] theorem State.setPc_status (t : Word) : (s.setPc t).status = s.status := rfl

@[simp] theorem State.setPc_killAge (t : Word) : (s.setPc t).killAge = s.killAge := rfl

@[simp] theorem State.setPc_getReg (t : Word) (r : RegIdx) : (s.setPc t).getReg r = s.getReg r := rfl

@[simp] theorem State.setPc_memRead (t : Word) (k : Word) : (s.setPc t).memRead k = s.memRead k := rfl

@[simp] theorem State.setPc_programLength (t : Word) : (s.setPc t).programLength = s.programLength := rfl

/-! ### `memWrite` -/

@[simp] theorem State.memWrite_regs (a v : Word) : (s.memWrite a v).regs = s.regs := rfl

@[simp] theorem State.memWrite_pc (a v : Word) : (s.memWrite a v).pc = s.pc := rfl

@[simp] theorem State.memWrite_mem (a v : Word) : (s.memWrite a v).mem = Memory.write s.mem a.toNat v := rfl

@[simp] theorem State.memWrite_insts (a v : Word) : (s.memWrite a v).insts = s.insts := rfl

@[simp] theorem State.memWrite_loaded (a v : Word) : (s.memWrite a v).loaded = s.loaded := rfl

@[simp] theorem State.memWrite_kill (a v : Word) : (s.memWrite a v).kill = s.kill := rfl

@[simp] theorem State.memWrite_status (a v : Word) : (s.memWrite a v).status = s.status := rfl

@[simp] theorem State.memWrite_killAge (a v : Word) : (s.memWrite a v).killAge = s.killAge := rfl

@[simp] theorem State.memWrite_getReg (a v : Word) (r : RegIdx) : (s.memWrite a v).getReg r = s.getReg r := rfl

@[simp] theorem State.memWrite_programLength (a v : Word) : (s.memWrite a v).programLength = s.programLength := rfl

@[simp] theorem State.memWrite_nextPc (a v : Word) : (s.memWrite a v).nextPc = s.nextPc := rfl

/-! ### `halt` -/

@[simp] theorem State.halt_regs : (s.halt).regs = s.regs := rfl

@[simp] theorem State.halt_pc : (s.halt).pc = s.pc := rfl

@[simp] theorem State.halt_mem : (s.halt).mem = s.mem := rfl

@[simp] theorem State.halt_insts : (s.halt).insts = s.insts := rfl

@[simp] theorem State.halt_loaded : (s.halt).loaded = s.loaded := rfl

@[simp] theorem State.halt_kill : (s.halt).kill = s.kill := rfl

@[simp] theorem State.halt_status : (s.halt).status = .halted := rfl

@[simp] theorem State.halt_killAge : (s.halt).killAge = s.killAge := rfl

@[simp] theorem State.halt_getReg (r : RegIdx) : (s.halt).getReg r = s.getReg r := rfl

@[simp] theorem State.halt_memRead (k : Word) : (s.halt).memRead k = s.memRead k := rfl

@[simp] theorem State.halt_programLength : (s.halt).programLength = s.programLength := rfl

@[simp] theorem State.halt_nextPc : (s.halt).nextPc = s.nextPc := rfl

/-! ### `raiseSimulation` -/

@[simp] theorem State.raiseSimulation_regs : (s.raiseSimulation).regs = s.regs := rfl

@[simp] theorem State.raiseSimulation_pc : (s.raiseSimulation).pc = s.pc := rfl

@[simp] theorem State.raiseSimulation_mem : (s.raiseSimulation).mem = s.mem := rfl

@[simp] theorem State.raiseSimulation_insts : (s.raiseSimulation).insts = s.insts := rfl

@[simp] theorem State.raiseSimulation_loaded : (s.raiseSimulation).loaded = s.loaded := rfl

@[simp] theorem State.raiseSimulation_kill : (s.raiseSimulation).kill = s.kill := rfl

@[simp] theorem State.raiseSimulation_status : (s.raiseSimulation).status = .faulted s.pc := rfl

@[simp] theorem State.raiseSimulation_killAge : (s.raiseSimulation).killAge = s.killAge := rfl

@[simp] theorem State.raiseSimulation_getReg (r : RegIdx) : (s.raiseSimulation).getReg r = s.getReg r := rfl

@[simp] theorem State.raiseSimulation_memRead (k : Word) : (s.raiseSimulation).memRead k = s.memRead k := rfl

@[simp] theorem State.raiseSimulation_programLength : (s.raiseSimulation).programLength = s.programLength := rfl

@[simp] theorem State.raiseSimulation_nextPc : (s.raiseSimulation).nextPc = s.nextPc := rfl

/-! ### `stopKilled` -/

@[simp] theorem State.stopKilled_regs : (s.stopKilled).regs = s.regs := rfl

@[simp] theorem State.stopKilled_pc : (s.stopKilled).pc = s.pc := rfl

@[simp] theorem State.stopKilled_mem : (s.stopKilled).mem = s.mem := rfl

@[simp] theorem State.stopKilled_insts : (s.stopKilled).insts = s.insts := rfl

@[simp] theorem State.stopKilled_loaded : (s.stopKilled).loaded = s.loaded := rfl

@[simp] theorem State.stopKilled_kill : (s.stopKilled).kill = s.kill := rfl

@[simp] theorem State.stopKilled_status : (s.stopKilled).status = .killed := rfl

@[simp] theorem State.stopKilled_killAge : (s.stopKilled).killAge = s.killAge := rfl

@[simp] theorem State.stopKilled_getReg (r : RegIdx) : (s.stopKilled).getReg r = s.getReg r := rfl

@[simp] theorem State.stopKilled_memRead (k : Word) : (s.stopKilled).memRead k = s.memRead k := rfl

@[simp] theorem State.stopKilled_programLength : (s.stopKilled).programLength = s.programLength := rfl

@[simp] theorem State.stopKilled_nextPc : (s.stopKilled).nextPc = s.nextPc := rfl

/-! ### `passBoundary` -/

@[simp] theorem State.passBoundary_regs : (s.passBoundary).regs = s.regs := rfl

@[simp] theorem State.passBoundary_pc : (s.passBoundary).pc = s.pc := rfl

@[simp] theorem State.passBoundary_mem : (s.passBoundary).mem = s.mem := rfl

@[simp] theorem State.passBoundary_insts : (s.passBoundary).insts = s.insts := rfl

@[simp] theorem State.passBoundary_loaded : (s.passBoundary).loaded = s.loaded := rfl

@[simp] theorem State.passBoundary_kill : (s.passBoundary).kill = s.kill := rfl

@[simp] theorem State.passBoundary_status : (s.passBoundary).status = s.status := rfl

@[simp] theorem State.passBoundary_killAge : (s.passBoundary).killAge = if s.kill then s.killAge + 1 else s.killAge := rfl

@[simp] theorem State.passBoundary_getReg (r : RegIdx) : (s.passBoundary).getReg r = s.getReg r := rfl

@[simp] theorem State.passBoundary_memRead (k : Word) : (s.passBoundary).memRead k = s.memRead k := rfl

@[simp] theorem State.passBoundary_programLength : (s.passBoundary).programLength = s.programLength := rfl

@[simp] theorem State.passBoundary_nextPc : (s.passBoundary).nextPc = s.nextPc := rfl

/-! ### `retire` -/

@[simp] theorem State.retire_regs (i : RegIdx) (v : Word) : (s.retire i v).regs = if i = 0#5 then s.regs else s.regs.set i.toNat v := rfl

@[simp] theorem State.retire_pc (i : RegIdx) (v : Word) : (s.retire i v).pc = s.nextPc := rfl

@[simp] theorem State.retire_mem (i : RegIdx) (v : Word) : (s.retire i v).mem = s.mem := rfl

@[simp] theorem State.retire_insts (i : RegIdx) (v : Word) : (s.retire i v).insts = s.insts := rfl

@[simp] theorem State.retire_loaded (i : RegIdx) (v : Word) : (s.retire i v).loaded = s.loaded := rfl

@[simp] theorem State.retire_kill (i : RegIdx) (v : Word) : (s.retire i v).kill = s.kill := rfl

@[simp] theorem State.retire_status (i : RegIdx) (v : Word) : (s.retire i v).status = s.status := rfl

@[simp] theorem State.retire_killAge (i : RegIdx) (v : Word) : (s.retire i v).killAge = s.killAge := rfl

@[simp] theorem State.retire_memRead (i : RegIdx) (v : Word) (k : Word) : (s.retire i v).memRead k = s.memRead k := rfl

@[simp] theorem State.retire_programLength (i : RegIdx) (v : Word) : (s.retire i v).programLength = s.programLength := rfl

end Sys2Proof.Machine
end

