-- ==== Sys2Proof/Laws/Memory.lean ====
section
/-! SUPPORT. What a cell reads after each operation on data memory, and that every operation keeps the canonical form
(spec/20_memory.md R50 to R54). -/

namespace Sys2Proof.Machine

theorem Memory.read_erase (m : Memory) (k j : Nat) :
    (Memory.erase m k).read j = if j = k then 0#32 else m.read j := by
  induction m with
  | nil => simp [Memory.erase, Memory.read]
  | cons e m ih =>
    obtain ⟨k', v⟩ := e
    by_cases hk : k' = k <;> by_cases hj : k' = j <;> by_cases hjk : j = k <;>
      simp_all [Memory.erase, Memory.read]

theorem Memory.read_insert (m : Memory) (k : Nat) (v : Word) (j : Nat) (h : m.read k = 0#32 ∨ j ≠ k)
    (hk : ∀ e ∈ m, e.1 ≠ k) : (Memory.insert m k v).read j = if j = k then v else m.read j := by
  induction m with
  | nil =>
    by_cases hjk : k = j
    · simp [Memory.insert, Memory.read, hjk]
    · simp [Memory.insert, Memory.read, hjk, Ne.symm hjk]
  | cons e m ih =>
    obtain ⟨k', v'⟩ := e
    have hk' : k' ≠ k := hk _ (List.mem_cons_self ..)
    have ih' := fun h => ih h (fun e he => hk e (List.mem_cons_of_mem _ he))
    by_cases hlt : k < k'
    · by_cases hjk : j = k
      · simp [Memory.insert, Memory.read, hlt, hjk]
      · simp [Memory.insert, Memory.read, hlt, hjk, Ne.symm hjk]
    · by_cases hj : k' = j
      · have : j ≠ k := fun e => hk' (hj.trans e)
        subst hj
        simp [Memory.insert, Memory.read, hlt, this]
      · have h2 : Memory.read m k = 0#32 ∨ j ≠ k := by
          refine h.imp_left fun h => ?_
          simpa [Memory.read, hk'] using h
        simp [Memory.insert, Memory.read, hlt, hj, ih' h2]

theorem Memory.erase_key_ne (m : Memory) (k : Nat) : ∀ e ∈ Memory.erase m k, e.1 ≠ k := by
  induction m with
  | nil => simp [Memory.erase]
  | cons e m ih =>
    obtain ⟨k', v⟩ := e
    by_cases hk : k' = k
    · simpa [Memory.erase, hk] using ih
    · simp only [Memory.erase, hk, if_false]
      intro e he
      rcases List.mem_cons.mp he with rfl | he
      · exact hk
      · exact ih e he

/-- Everything a write does to memory, seen through reads: of any memory, canonical or not. -/
theorem Memory.read_write (m : Memory) (k : Nat) (v : Word) (j : Nat) :
    (Memory.write m k v).read j = if j = k then v else m.read j := by
  unfold Memory.write
  by_cases hv : v = 0#32
  · rw [if_pos hv, Memory.read_erase, hv]
  · rw [if_neg hv, Memory.read_insert _ _ _ _ (by simp [Memory.read_erase]) (Memory.erase_key_ne m k),
      Memory.read_erase]
    by_cases hj : j = k <;> simp [hj]

theorem Memory.risingFrom_mono {m : Memory} {lo lo' : Int} (hle : lo' ≤ lo)
    (h : Memory.risingFrom lo m = true) : Memory.risingFrom lo' m = true := by
  cases m with
  | nil => rfl
  | cons e m =>
    obtain ⟨k, v⟩ := e
    simp only [Memory.risingFrom, Bool.and_eq_true, decide_eq_true_eq] at h ⊢
    exact ⟨by omega, h.2⟩

theorem Memory.risingFrom_erase {m : Memory} {lo : Int} (k : Nat) (h : Memory.risingFrom lo m = true) :
    Memory.risingFrom lo (Memory.erase m k) = true := by
  induction m generalizing lo with
  | nil => rfl
  | cons e m ih =>
    obtain ⟨k', v⟩ := e
    simp only [Memory.risingFrom, Bool.and_eq_true, decide_eq_true_eq] at h
    unfold Memory.erase
    split
    · exact Memory.risingFrom_mono (Int.le_of_lt h.1) (ih h.2.2.2)
    · simp only [Memory.risingFrom, Bool.and_eq_true, decide_eq_true_eq]
      exact ⟨h.1, h.2.1, h.2.2.1, ih h.2.2.2⟩

theorem Memory.risingFrom_insert {m : Memory} {lo : Int} {k : Nat} {v : Word} (hlo : lo < k) (hk : k < 2 ^ 32)
    (hv : v ≠ 0#32) (hne : ∀ e ∈ m, e.1 ≠ k) (h : Memory.risingFrom lo m = true) :
    Memory.risingFrom lo (Memory.insert m k v) = true := by
  induction m generalizing lo with
  | nil =>
    simp only [Memory.insert, Memory.risingFrom, Bool.and_eq_true, decide_eq_true_eq]
    exact ⟨hlo, hk, hv, trivial⟩
  | cons e m ih =>
    obtain ⟨k', v'⟩ := e
    have hk' : k' ≠ k := hne _ (List.mem_cons_self ..)
    simp only [Memory.risingFrom, Bool.and_eq_true, decide_eq_true_eq] at h
    unfold Memory.insert
    split
    · rename_i hlt
      simp only [Memory.risingFrom, Bool.and_eq_true, decide_eq_true_eq]
      exact ⟨hlo, hk, hv, by omega, h.2⟩
    · simp only [Memory.risingFrom, Bool.and_eq_true, decide_eq_true_eq]
      exact ⟨h.1, h.2.1, h.2.2.1,
        ih (by omega) (fun e he => hne e (List.mem_cons_of_mem _ he)) h.2.2.2⟩

/-- A write keeps the canonical form. -/
theorem Memory.wf_write {m : Memory} {k : Nat} (v : Word) (hk : k < 2 ^ 32) (h : Memory.wf m = true) :
    Memory.wf (Memory.write m k v) = true := by
  unfold Memory.write Memory.wf
  split
  · exact Memory.risingFrom_erase k h
  · rename_i hv
    exact Memory.risingFrom_insert (by omega) hk hv (Memory.erase_key_ne m k) (Memory.risingFrom_erase k h)

/-- Memory at reset is canonical. -/
theorem Memory.wf_reset : Memory.wf State.reset.mem = true := rfl

/-- Everything a store does, seen through reads. -/
theorem State.memRead_memWrite (s : State) (a v k : Word) :
    (s.memWrite a v).memRead k = if k = a then v else s.memRead k := by
  unfold State.memRead
  rw [State.memWrite_mem, Memory.read_write]
  by_cases h : k = a
  · simp [h]
  · have : k.toNat ≠ a.toNat := fun e => h (BitVec.eq_of_toNat_eq e)
    simp [h, this]

/-- A store keeps the canonical form. -/
theorem State.wf_memWrite {s : State} (a v : Word) (h : Memory.wf s.mem = true) :
    Memory.wf (s.memWrite a v).mem = true :=
  Memory.wf_write v a.isLt h

end Sys2Proof.Machine
end

