-- ==== Sys2Proof/Laws/Registers.lean ====
section
/-! SUPPORT. What a register read answers after each operation on registers (spec/10_state.md R21, R22). -/

namespace Sys2Proof.Machine

@[simp] theorem State.getReg_zero (s : State) : s.getReg 0#5 = 0#32 := by simp [State.getReg]

/-- Everything a register write does, seen through reads. -/
theorem State.getReg_setReg (s : State) (i : RegIdx) (v : Word) (r : RegIdx) :
    (s.setReg i v).getReg r = if r = 0#5 then 0#32 else if r = i then v else s.getReg r := by
  unfold State.getReg
  rw [State.setReg_regs]
  by_cases hr : r = 0#5
  · simp [hr]
  · by_cases hri : r = i
    · subst hri; simp [hr]
    · have hne : i.toNat ≠ r.toNat := fun h => hri (BitVec.eq_of_toNat_eq h.symm)
      by_cases hi : i = 0#5
      · simp [hr, hi]
      · simp [hr, hri, hi, hne]

/-- Everything the end of a register-writing instruction does to registers. -/
theorem State.getReg_retire (s : State) (i : RegIdx) (v : Word) (r : RegIdx) :
    (s.retire i v).getReg r = if r = 0#5 then 0#32 else if r = i then v else s.getReg r :=
  State.getReg_setReg s i v r

/-- A register-writing end leaves memory and the control fields, and the statement's form of what it writes. -/
theorem State.regWritten_retire (s : State) (i : RegIdx) (v : Word) : RegWritten s (s.retire i v) i v :=
  fun r => State.getReg_retire s i v r

end Sys2Proof.Machine
end

