-- ==== Sys2Proof/Laws/Exec.lean ====
section
/-! SUPPORT. Everything an instruction can do, said once: each execution is one of four shapes, and each leaves the program,
the kill input and the status as they were (spec/10_state.md R24, R26). -/

namespace Sys2Proof.Machine

/-- The four shapes of an instruction's effect: a register written and the PC advanced, a cell written and the PC advanced,
the PC set, the link register written and the PC set. -/
theorem exec_cases {i : Instr} {s t : State} (h : exec i s = .next t) :
    (∃ rd v, t = s.retire rd v) ∨
    (∃ a v, t = (s.memWrite a v).setPc s.nextPc) ∨
    (∃ p, t = s.setPc p) ∨
    (∃ p, t = (s.setReg linkRegister s.nextPc).setPc p) := by
  cases i <;> injection h with h <;> subst h
  case sw => exact .inr (.inl ⟨_, _, rfl⟩)
  case jal => exact .inr (.inr (.inr ⟨_, rfl⟩))
  case beq => exact .inr (.inr (.inl ⟨_, rfl⟩))
  case bne => exact .inr (.inr (.inl ⟨_, rfl⟩))
  case j => exact .inr (.inr (.inl ⟨_, rfl⟩))
  case jr => exact .inr (.inr (.inl ⟨_, rfl⟩))
  case jrFallback => exact .inr (.inr (.inl ⟨_, rfl⟩))
  all_goals exact .inl ⟨_, _, rfl⟩

/-- No instruction changes the program, the kill input, the model's count of it, or the status. -/
theorem exec_sameControl {i : Instr} {s t : State} (h : exec i s = .next t) : SameControl s t := by
  rcases exec_cases h with ⟨_, _, rfl⟩ | ⟨_, _, rfl⟩ | ⟨_, rfl⟩ | ⟨_, rfl⟩ <;> exact ⟨rfl, rfl, rfl, rfl, rfl⟩

/-- Every instruction keeps memory canonical. -/
theorem exec_keeps_memWf {i : Instr} {s t : State} (h : exec i s = .next t) (hw : Memory.wf s.mem = true) :
    Memory.wf t.mem = true := by
  rcases exec_cases h with ⟨_, _, rfl⟩ | ⟨a, v, rfl⟩ | ⟨_, rfl⟩ | ⟨_, rfl⟩
  · exact hw
  · exact State.wf_memWrite a v hw
  · exact hw
  · exact hw

end Sys2Proof.Machine
end

