-- ==== Sys2Proof/Laws/PerInstr.lean ====
section
/-! SUPPORT. The family of per-instruction lemmas: the encoder's word of an instruction is of the instruction's kind by the
mask and match columns (spec/30_encoding.md R78, R88). -/

namespace Sys2Proof.Laws.EncodeMatches

/-- The word of `i` is of the kind of `i`. -/
def Statement (i : Instr) : Prop := encode i &&& i.kind.mask = i.kind.pattern

/-- The match column is the opcode and the function code in place. -/
theorem pattern_eq (k : Kind) : place 26 k.opcode ||| place 0 k.funct = k.pattern := by cases k <;> decide

/-- For a kind of format R. -/
theorem ofR {k : Kind} (h : k.format = .r) (s : Slots) : encodeSlots k s &&& 0xFC00003F#32 = k.pattern := by
  obtain ⟨ho, -, -, -, -, hf⟩ := fields_encodeR h s
  rw [and_functMask, ho, hf, pattern_eq]

/-- For a kind of format I. -/
theorem ofI {k : Kind} (h : k.format = .i) (s : Slots) : encodeSlots k s &&& 0xFC000000#32 = k.pattern := by
  rw [and_opcodeMask, (fields_encodeI h s).1]
  cases k <;> first | decide | contradiction

/-- For a kind of format J. -/
theorem ofJ {k : Kind} (h : k.format = .j) (s : Slots) : encodeSlots k s &&& 0xFC000000#32 = k.pattern := by
  rw [and_opcodeMask, (fields_encodeJ h s).1]
  cases k <;> first | decide | contradiction

theorem add (rd rs rt : RegIdx) : Statement (.add rd rs rt) :=
  ofR (k := .add) rfl _

theorem sub (rd rs rt : RegIdx) : Statement (.sub rd rs rt) :=
  ofR (k := .sub) rfl _

theorem and (rd rs rt : RegIdx) : Statement (.and rd rs rt) :=
  ofR (k := .and) rfl _

theorem or (rd rs rt : RegIdx) : Statement (.or rd rs rt) :=
  ofR (k := .or) rfl _

theorem xor (rd rs rt : RegIdx) : Statement (.xor rd rs rt) :=
  ofR (k := .xor) rfl _

theorem sll (rd rt : RegIdx) (sa : ShAmt) : Statement (.sll rd rt sa) :=
  ofR (k := .sll) rfl _

theorem srl (rd rt : RegIdx) (sa : ShAmt) : Statement (.srl rd rt sa) :=
  ofR (k := .srl) rfl _

theorem sra (rd rt : RegIdx) (sa : ShAmt) : Statement (.sra rd rt sa) :=
  ofR (k := .sra) rfl _

theorem jr (rs : RegIdx) : Statement (.jr rs) :=
  ofR (k := .jr) rfl _

theorem addi (rt rs : RegIdx) (imm : Word) : Statement (.addi rt rs imm) :=
  ofI (k := .addi) rfl _

theorem andi (rt rs : RegIdx) (imm : Word) : Statement (.andi rt rs imm) :=
  ofI (k := .andi) rfl _

theorem ori (rt rs : RegIdx) (imm : Word) : Statement (.ori rt rs imm) :=
  ofI (k := .ori) rfl _

theorem xori (rt rs : RegIdx) (imm : Word) : Statement (.xori rt rs imm) :=
  ofI (k := .xori) rfl _

theorem lw (rt rs : RegIdx) (imm : Word) : Statement (.lw rt rs imm) :=
  ofI (k := .lw) rfl _

theorem sw (rt rs : RegIdx) (imm : Word) : Statement (.sw rt rs imm) :=
  ofI (k := .sw) rfl _

theorem beq (rs rt : RegIdx) (imm : Word) : Statement (.beq rs rt imm) :=
  ofI (k := .beq) rfl _

theorem bne (rs rt : RegIdx) (imm : Word) : Statement (.bne rs rt imm) :=
  ofI (k := .bne) rfl _

theorem lui (rt : RegIdx) (imm : Word) : Statement (.lui rt imm) :=
  ofI (k := .lui) rfl _

theorem j (addr : Word) : Statement (.j addr) :=
  ofJ (k := .j) rfl _

theorem jal (addr : Word) : Statement (.jal addr) :=
  ofJ (k := .jal) rfl _

theorem jrFallback (rs : RegIdx) : Statement (.jrFallback rs) :=
  ofR (k := .jr) rfl _

end Sys2Proof.Laws.EncodeMatches
end

