-- ==== Sys2Proof/Laws/Run.lean ====
section
/-! SUPPORT. Everything a boundary, a stop, a step and a host move can do, said once each (spec/10_state.md R30,
spec/60_exceptions.md R198, spec/70_reset_and_hazards.md R222). -/

namespace Sys2Proof.Machine

/-! ### The boundary -/

theorem State.boundary_atEnd {s : State} (h : s.pc.toInt = s.programLength) : s.boundary = .atEnd := by
  simp [State.boundary, h]

theorem State.boundary_outOfRange {s : State} (h : s.pcOutOfRange) : s.boundary = .outOfRange := by
  have hne : s.pc.toInt ≠ s.programLength := by
    intro e; rcases h with h | h <;> omega
  unfold State.boundary
  unfold State.pcOutOfRange at h
  rw [if_neg hne, if_pos h]

/-- A PC that is a valid index names an instruction of the program. -/
theorem State.boundary_inRange {s : State} (h0 : 0 ≤ s.pc.toInt) (h1 : s.pc.toInt < s.programLength) :
    ∃ i, s.insts[s.pc.toNat]? = some i ∧ s.boundary = .at i := by
  have hn : s.pc.toInt = s.pc.toNat := by
    rw [BitVec.toInt_eq_toNat_cond] at h0 ⊢
    have := s.pc.isLt
    split at h0 <;> omega
  have hlt : s.pc.toNat < s.insts.length := by
    unfold State.programLength at h1
    omega
  refine ⟨s.insts[s.pc.toNat], List.getElem?_eq_getElem hlt, ?_⟩
  unfold State.boundary
  rw [if_neg (by omega), if_neg (by omega), List.getElem?_eq_getElem hlt]

/-- Everything a boundary can be. -/
theorem State.boundary_cases (s : State) :
    (s.boundary = .atEnd ∧ s.pc.toInt = s.programLength) ∨
    (s.boundary = .outOfRange ∧ s.pcOutOfRange) ∨
    (∃ i, s.boundary = .at i ∧ 0 ≤ s.pc.toInt ∧ s.pc.toInt < s.programLength ∧ s.insts[s.pc.toNat]? = some i) := by
  by_cases he : s.pc.toInt = s.programLength
  · exact .inl ⟨State.boundary_atEnd he, he⟩
  · by_cases ho : s.pcOutOfRange
    · exact .inr (.inl ⟨State.boundary_outOfRange ho, ho⟩)
    · have h0 : 0 ≤ s.pc.toInt := Int.not_lt.mp fun h => ho (.inl h)
      have h1 : s.pc.toInt < s.programLength := by
        have := Int.not_lt.mp fun h => ho (.inr h)
        omega
      obtain ⟨i, hi, hb⟩ := State.boundary_inRange h0 h1
      exact .inr (.inr ⟨i, hb, h0, h1, hi⟩)

/-! ### The kill input -/

/-- `kill` seen was set. -/
theorem State.kill_of_killIsSeen {s : State} (h : s.killIsSeen = true) : s.kill = true := by
  unfold State.killIsSeen at h
  rw [Bool.and_eq_true] at h
  exact h.1

/-- With `kill` clear nothing is seen. -/
theorem State.killIsSeen_of_clear {s : State} (h : s.kill = false) : s.killIsSeen = false := by
  simp [State.killIsSeen, h]

/-- `kill` set and unseen has not reached its bound. -/
theorem State.killAge_lt_bound {s : State} (hk : s.kill = true) (h : s.killIsSeen = false) :
    s.killAge < Config.killBound := by
  unfold State.killIsSeen at h
  rw [hk, Bool.true_and, Bool.or_eq_false_iff, decide_eq_false_iff_not] at h
  exact Nat.not_le.mp h.1

/-- Everything a stop at a seen `kill` can do: one of the three stops, and the two that the PC tests make only where those
tests hold. -/
theorem State.stopAtKill_cases (s : State) :
    s.stopAtKill = s.stopKilled ∨
    (s.stopAtKill = s.halt ∧ s.pc.toInt = s.programLength) ∨
    (s.stopAtKill = s.raiseSimulation ∧ s.pcOutOfRange) := by
  unfold State.stopAtKill
  rcases State.boundary_cases s with ⟨hb, h⟩ | ⟨hb, h⟩ | ⟨i, hb, -⟩ <;> rw [hb]
  · dsimp only
    split
    · exact .inl rfl
    · exact .inr (.inl ⟨rfl, h⟩)
  · dsimp only
    split
    · exact .inl rfl
    · exact .inr (.inr ⟨rfl, h⟩)
  · exact .inl rfl

/-! ### The step -/

/-- Everything a step that answers a next state has done. -/
theorem step_cases {s t : State} (h : step s = .next t) :
    s.status = .running ∧
    ((s.killIsSeen = true ∧ t = s.stopAtKill) ∨
     (s.killIsSeen = false ∧ s.pc.toInt = s.programLength ∧ t = s.halt) ∨
     (s.killIsSeen = false ∧ s.pcOutOfRange ∧ t = s.raiseSimulation) ∨
     (s.killIsSeen = false ∧ ∃ i, s.insts[s.pc.toNat]? = some i ∧ 0 ≤ s.pc.toInt ∧
       s.pc.toInt < s.programLength ∧ exec i s.passBoundary = .next t)) := by
  unfold step sequencerStep at h
  cases hst : s.status <;> rw [hst] at h <;> dsimp only at h <;> try contradiction
  refine ⟨rfl, ?_⟩
  unfold cycle at h
  by_cases hk : s.killIsSeen = true
  · rw [if_pos hk] at h
    injection h with h
    exact .inl ⟨hk, h.symm⟩
  · rw [if_neg hk] at h
    rw [Bool.not_eq_true] at hk
    rcases State.boundary_cases s with ⟨hb, hp⟩ | ⟨hb, hp⟩ | ⟨i, hb, h0, h1, hi⟩ <;> rw [hb] at h
    · injection h with h
      exact .inr (.inl ⟨hk, hp, h.symm⟩)
    · injection h with h
      exact .inr (.inr (.inl ⟨hk, hp, h.symm⟩))
    · exact .inr (.inr (.inr ⟨hk, i, hi, h0, h1, h⟩))

/-- The step of a running machine. -/
theorem step_running {s : State} (h : s.status = .running) : step s = cycle s := by
  simp [step, sequencerStep, h]

/-! ### The host -/

/-- Everything a move of the host that is allowed has done. -/
theorem hostMove_cases {m : HostMove} {s t : State} (h : hostMove m s = .next t) :
    (s.status = .idle ∧ s.loaded = false ∧ ∃ is, is.length < 2 ^ 31 ∧ t = { s with insts := is, loaded := true } ∧
      ((∃ ws, m = .load ws ∧ decodeAll 0 ws = .ok is) ∨ ∃ text, m = .loadImage text ∧ decodeImage text = .ok is)) ∨
    (s.status ≠ .running ∧ ∃ a v, m = .setMemory a v ∧ t = s.memWrite a v) ∨
    (s.status = .idle ∧ s.loaded = true ∧ m = .run ∧ t = { s with status := .running, pc := 0#32 }) ∨
    (m = .setKill ∧ t = { s with kill := true }) := by
  have install : ∀ is, installProgram is s = .next t →
      s.loaded = false ∧ is.length < 2 ^ 31 ∧ t = { s with insts := is, loaded := true } := by
    intro is h
    unfold installProgram at h
    split at h
    · contradiction
    · rename_i hl
      split at h
      · contradiction
      · rename_i hn
        injection h with h
        exact ⟨by simpa using hl, Nat.not_le.mp hn, h.symm⟩
  cases m with
  | load ws =>
    simp only [hostMove, hostLoad] at h
    split at h
    · rename_i hst
      split at h
      · contradiction
      · rename_i is hd
        obtain ⟨hl, hn, ht⟩ := install is h
        exact .inl ⟨hst, hl, is, hn, ht, .inl ⟨ws, rfl, hd⟩⟩
    · contradiction
  | loadImage text =>
    simp only [hostMove, hostLoadImage] at h
    split at h
    · rename_i hst
      split at h
      · contradiction
      · rename_i is hd
        obtain ⟨hl, hn, ht⟩ := install is h
        exact .inl ⟨hst, hl, is, hn, ht, .inr ⟨text, rfl, hd⟩⟩
    · contradiction
  | setMemory a v =>
    simp only [hostMove, hostSetMemory] at h
    split at h
    · contradiction
    · rename_i hst
      injection h with h
      exact .inr (.inl ⟨fun e => hst e, a, v, rfl, h.symm⟩)
  | run =>
    simp only [hostMove, hostRun] at h
    split at h
    · rename_i hst
      split at h
      · rename_i hl
        injection h with h
        exact .inr (.inr (.inl ⟨hst, hl, rfl, h.symm⟩))
      · contradiction
    · contradiction
  | setKill =>
    simp only [hostMove, hostSetKill] at h
    injection h with h
    exact .inr (.inr (.inr ⟨rfl, h.symm⟩))

end Sys2Proof.Machine
end

