-- ==== Sys2Proof/Tests/Slice0.lean ====
section
/-! SUPPORT. Tests of the model against the vectors of spec/95_test_vectors.md and the corner cases of the rules, and, for each
statement with hypotheses, a state and operands that meet them (the theorems named witness_<statement>). -/

namespace Sys2Proof.Tests

open Sys2Proof.Machine

/-! ### Helpers -/

/-- A running machine with a program, registers and cells of data memory. -/
def machine (is : List Instr) (pc : Word) (regs : List (RegIdx × Word)) (cells : List (Word × Word)) : State :=
  let s := regs.foldl (fun s p => s.setReg p.1 p.2) State.reset
  let s := cells.foldl (fun s p => s.memWrite p.1 p.2) s
  { s with insts := is, loaded := true, status := .running, pc := pc }

/-- A value read from the next state of an outcome. -/
def after {α : Type} (o : Host.Outcome State Fault Refusal) (f : State → α) : Option α :=
  match o with
  | .next t => some (f t)
  | .fault _ => none
  | .refused _ => none

/-- A register and the PC after an instruction. -/
def regPc (i : Instr) (s : State) (r : RegIdx) : Option (Word × Word) := after (exec i s) fun t => (t.getReg r, t.pc)

/-! ### Well-formedness: each check refuses an ill-formed term -/

theorem test_wf_addi : (Instr.addi 1 0 0x00007fff#32).wf = true ∧ (Instr.addi 1 0 0x00008000#32).wf = false := by decide
theorem test_wf_andi : (Instr.andi 1 0 0xffff8000#32).wf = true ∧ (Instr.andi 1 0 0x0000ffff#32).wf = false := by decide
theorem test_wf_lw : (Instr.lw 1 0 0xfffffffc#32).wf = true ∧ (Instr.lw 1 0 0xffff7fff#32).wf = false := by decide
theorem test_wf_beq : (Instr.beq 1 0 3#32).wf = true ∧ (Instr.beq 1 0 0x00010000#32).wf = false := by decide
theorem test_wf_lui : (Instr.lui 1 0xffff8000#32).wf = true ∧ (Instr.lui 1 0x00008000#32).wf = false := by decide
theorem test_wf_j : (Instr.j 0x01ffffff#32).wf = true ∧ (Instr.j 0x02000000#32).wf = false := by decide
theorem test_wf_jal : (Instr.jal 0xfe000000#32).wf = true ∧ (Instr.jal 0xfdffffff#32).wf = false := by decide

/-! ### Decoding: the words of 95 2.1, R131 to R176, written out bit by bit where the comment says so -/

-- 000000 00011 00001 00011 00000 100000
theorem test_decode_add : decode 0b00000000011000010001100000100000#32 = .ok (.add 3 3 1) := by decide
theorem test_decode_add_sa_ignored : decode 0x014b4fe0#32 = .ok (.add 9 10 11) := by decide
theorem test_decode_sub : decode 0x00053022#32 = .ok (.sub 6 0 5) := by decide
theorem test_decode_and : decode 0x00210024#32 = .ok (.and 0 1 1) := by decide
theorem test_decode_or : decode 0x00403825#32 = .ok (.or 7 2 0) := by decide
theorem test_decode_xor : decode 0x00432826#32 = .ok (.xor 5 2 3) := by decide
-- 000000 00000 00001 00100 00001 000000
theorem test_decode_sll : decode 0b00000000000000010010000001000000#32 = .ok (.sll 4 1 1) := by decide
theorem test_decode_srl : decode 0x00011102#32 = .ok (.srl 2 1 4) := by decide
theorem test_decode_sra : decode 0x001f0fc3#32 = .ok (.sra 1 31 31) := by decide
-- 001000 00000 00010 1111111111111111
theorem test_decode_addi : decode 0b00100000000000101111111111111111#32 = .ok (.addi 2 0 0xffffffff#32) := by decide
theorem test_decode_andi : decode 0x302300ff#32 = .ok (.andi 3 1 255#32) := by decide
theorem test_decode_ori : decode 0x3401ffff#32 = .ok (.ori 1 0 0xffffffff#32) := by decide
theorem test_decode_xori : decode 0x38220f0f#32 = .ok (.xori 2 1 3855#32) := by decide
theorem test_decode_lui : decode 0x3c018000#32 = .ok (.lui 1 0xffff8000#32) := by decide
theorem test_decode_lui_rs_ignored : decode 0x3de90001#32 = .ok (.lui 9 1#32) := by decide
-- 100011 00001 00100 1111111111111100
theorem test_decode_lw : decode 0b10001100001001001111111111111100#32 = .ok (.lw 4 1 0xfffffffc#32) := by decide
theorem test_decode_sw : decode 0xac030008#32 = .ok (.sw 3 0 8#32) := by decide
-- 000100 00010 00000 0000000000000011
theorem test_decode_beq : decode 0b00010000010000000000000000000011#32 = .ok (.beq 2 0 3#32) := by decide
theorem test_decode_bne : decode 0x1420fffe#32 = .ok (.bne 1 0 0xfffffffe#32) := by decide
theorem test_decode_j : decode 0x09ffffff#32 = .ok (.j 33554431#32) ∧ decode 0x0bffffff#32 = .ok (.j 0xffffffff#32) := by
  decide
theorem test_decode_jal : decode 0x0c000007#32 = .ok (.jal 7#32) := by decide
theorem test_decode_jr : decode 0x03e00008#32 = .ok (.jr 31) := by decide
theorem test_decode_fallback : decode 0x03e0003f#32 = .ok (.jrFallback 31) ∧ decode 0x0000002a#32 = .ok (.jrFallback 0) := by
  decide
theorem test_decode_invalid : decode 0x70000000#32 = .error (.invalidInstruction 0x70000000#32) ∧
    decode 0xffffffff#32 = .error (.invalidInstruction 0xffffffff#32) := by decide
theorem test_decodeTableWord : decodeTableWord 32 0x2002ffff = some (.addi 2 0 0xffffffff#32) ∧
    decodeTableWord 32 0x40000000 = none := by decide

/-! ### Encoding: R88, R89, R92 -/

theorem test_encode_addi : encode (.addi 2 0 0xffffffff#32) = 0x2002ffff#32 := by decide
theorem test_encode_lw : encode (.lw 4 1 0xfffffffc#32) = 0x8c24fffc#32 := by decide
theorem test_encode_sra : encode (.sra 1 31 31) = 0x001f0fc3#32 := by decide
theorem test_encode_jal : encode (.jal 7#32) = 0x0c000007#32 := by decide
theorem test_encode_fallback : encode (.jrFallback 31) = 0x03e00008#32 := by decide
theorem test_encode_truncates : encode (.addi 1 0 65535#32) = 0x2001ffff#32 := by decide

/-! ### Execution: the tables of 95 2.2 to 2.6 -/

theorem test_add_wraps : regPc (.add 3 1 2) (machine [] 5 [(1, 0xffffffff), (2, 1)] []) 3 = some (0, 6) := by decide
theorem test_add_zero_dest : regPc (.add 0 1 2) (machine [] 5 [(1, 5), (2, 7)] []) 0 = some (0, 6) := by decide
theorem test_add_same_thrice : regPc (.add 3 3 3) (machine [] 0 [(3, 0x40000000)] []) 3 = some (0x80000000, 1) := by decide
theorem test_sub_borrow : regPc (.sub 3 1 2) (machine [] 0 [(1, 5), (2, 7)] []) 3 = some (0xfffffffe, 1) := by decide
theorem test_and : regPc (.and 3 1 2) (machine [] 0 [(1, 0x12345678), (2, 0x0f0f0f0f)] []) 3 = some (0x02040608, 1) := by
  decide
theorem test_or : regPc (.or 3 1 2) (machine [] 0 [(1, 0x12345678), (2, 0x0f0f0f0f)] []) 3 = some (0x1f3f5f7f, 1) := by decide
theorem test_xor : regPc (.xor 3 1 2) (machine [] 0 [(1, 0x12345678), (2, 0x0f0f0f0f)] []) 3 = some (0x1d3b5977, 1) := by
  decide
theorem test_sll : regPc (.sll 4 1 1) (machine [] 0 [(1, 0x800000f0)] []) 4 = some (0x000001e0, 1) := by decide
theorem test_srl_arithmetic : regPc (.srl 2 1 4) (machine [] 0 [(1, 0x800000f0)] []) 2 = some (0xf800000f, 1) := by decide
theorem test_sra_logical : regPc (.sra 3 1 4) (machine [] 0 [(1, 0x800000f0)] []) 3 = some (0x0800000f, 1) := by decide
theorem test_srl_31 : regPc (.srl 2 1 31) (machine [] 0 [(1, 0x80000000)] []) 2 = some (0xffffffff, 1) := by decide
theorem test_sra_31 : regPc (.sra 2 1 31) (machine [] 0 [(1, 0x80000000)] []) 2 = some (1, 1) := by decide
theorem test_addi_no_trap : regPc (.addi 2 1 1) (machine [] 0 [(1, 0x7fffffff)] []) 2 = some (0x80000000, 1) := by decide
theorem test_andi_slot : regPc (.andi 2 1 0xffff8000#32) (machine [] 0 [(1, 0xffffffff)] []) 2 = some (0xffff8000, 1) := by
  decide
theorem test_ori_slot : regPc (.ori 2 1 0xffff8000#32) (machine [] 0 [] []) 2 = some (0xffff8000, 1) := by decide
theorem test_xori_slot : regPc (.xori 2 1 0xffffffff#32) (machine [] 0 [(1, 0x0000ffff)] []) 2 = some (0xffff0000, 1) := by
  decide
theorem test_lui : regPc (.lui 1 0xffff8000#32) (machine [] 0 [] []) 1 = some (0x80000000, 1) := by decide
theorem test_lw_old_base : regPc (.lw 4 4 0) (machine [] 0 [(4, 16)] [(16, 7)]) 4 = some (7, 1) := by decide
theorem test_lw_wraps : regPc (.lw 2 1 1) (machine [] 0 [(1, 0xffffffff)] [(0, 9)]) 2 = some (9, 1) := by decide
theorem test_sw_neighbours : after (exec (.sw 1 0 1) (machine [] 0 [(1, 0x1234)] []))
    (fun t => [t.memRead 0, t.memRead 1, t.memRead 2, t.memRead 4]) = some [0, 0x1234, 0, 0] := by decide
theorem test_sw_zero_unlists : after (exec (.sw 0 0 8) (machine [] 0 [] [(8, 35)])) (fun t => t.mem) = some [] := by decide
theorem test_beq_taken : regPc (.beq 2 0 3) (machine [] 3 [] []) 2 = some (0, 7) := by decide
theorem test_beq_not_taken : regPc (.beq 2 0 3) (machine [] 3 [(2, 1)] []) 2 = some (1, 4) := by decide
theorem test_bne_taken : regPc (.bne 1 0 0xfffffffe#32) (machine [] 1 [(1, 1)] []) 1 = some (1, 0) := by decide
theorem test_bne_below_zero : regPc (.bne 1 0 0xfffffffe#32) (machine [] 0 [(1, 1)] []) 1 = some (1, 0xffffffff) := by decide
theorem test_j_top_nibble : regPc (.j 3) (machine [] 0x10000005 [] []) 0 = some (0, 0x10000003) := by decide
theorem test_j_negative : regPc (.j 0xffffffff#32) (machine [] 6 [] []) 0 = some (0, 0xffffffff) := by decide
theorem test_jal_links_index : regPc (.jal 7) (machine [] 3 [] []) 31 = some (4, 7) := by decide
theorem test_jr_raw : regPc (.jr 5) (machine [] 1 [(5, 0x80000000)] []) 5 = some (0x80000000, 0x80000000) := by decide
theorem test_fallback_is_jr : regPc (.jrFallback 0) (machine [] 9 [] []) 0 = some (0, 0) := by decide

/-! ### The run cycle and the host: 95 2.7, P4, R192 -/

theorem test_halt_at_n : after (step (machine [.sll 0 0 0] 1 [] [])) (fun t => (t.status, t.pc)) = some (.halted, 1) := by
  decide
theorem test_halt_empty : after (step (machine [] 0 [] [])) (fun t => t.status) = some .halted := by decide
theorem test_fault_above_n : after (step (machine [.sll 0 0 0] 2 [] [])) (fun t => t.status) = some (.faulted 2) := by decide
theorem test_step_runs : after (step (machine [.sll 0 0 0, .addi 1 0 5] 1 [] [])) (fun t => (t.getReg 1, t.pc, t.status)) =
    some (5, 2, .running) := by decide
theorem test_load_refused : hostLoad [0x20010001#32, 0xffffffff#32] State.reset =
    .refused (.invalidInstruction 0xffffffff#32 1) := by rfl
theorem test_load_run : (match hostLoad [0x20010001#32] State.reset with
    | .next s => after (hostRun s) fun t => (t.status, t.pc, t.insts)
    | _ => none) = some (.running, 0, [.addi 1 0 1]) := by decide
theorem test_fetch_word : after (step (State.reset.withFetchWord 32 0x2002ffff)) (fun t => (t.getReg 2, t.pc)) =
    some (0xffffffff, 1) := by decide

/-! ### The surrounding software: 95 S3, S4, P1, R96 to R110 -/

theorem test_hexWord : hexWord 0x2002ffff#32 = "2002ffff".toList := by decide
theorem test_parseHexWord_upper : parseHexWord "2002FFFF".toList = some 0x2002ffff#32 := by decide
theorem test_parseHexWord_short : parseHexWord "2002fff".toList = none := by decide
theorem test_assemble_s3 : assemble " addi $2, $0, -1".toList = .ok [0x2002ffff#32] := by decide
theorem test_assemble_s4 : assemble "l: addi $1,$1,1 \n bne $1,$0,l".toList = .ok [0x20210001#32, 0x1420fffe#32] := by decide
theorem test_assemble_s5 : assemble " lw $4, -4($1)  ; c".toList = .ok [0x8c24fffc#32] := by decide
theorem test_assemble_sa : assemble " SLL $2, $2, -1".toList = .ok [0x000217c0#32] := by decide
theorem test_assemble_name : assemble "\tjr $ra".toList = .ok [0x03e00008#32] := by decide
theorem test_assemble_end_label : assemble " j end\nend:".toList = .ok [0x08000001#32] := by decide
theorem test_assemble_column_zero : assemble "addi $2, $0, -1".toList =
    .error (.badSyntax .labelNeedsColon (some 1) (Config.syntaxColumn "addi $2, $0, -1".toList 1)) := by rfl
theorem test_assemble_integer_label : assemble "7: jr $ra".toList =
    .error (.badSyntax .labelIsInteger (some 1) (Config.syntaxColumn "7: jr $ra".toList 1)) := by rfl
theorem test_assemble_out_of_range : assemble " addi $2, $0, 65536".toList = .error (.invalidArgument
    (Config.invalidArgumentMessage .addi ["$2".toList, "$0".toList, "65536".toList] 1) 1) := by rfl
theorem test_assemble_named_base : assemble " lw $4, 0($sp)".toList = .error (.invalidArgument
    (Config.invalidArgumentMessage .lw ["$4".toList, "0($sp)".toList] 1) 1) := by rfl
theorem test_assemble_unknown_label : assemble "\n j nowhere".toList = .error (.labelNotFound "nowhere".toList 2) := by decide
theorem test_assemble_mnemonic : assemble " nop $0".toList =
    .error (.badSyntax .invalidMnemonic (some 1) (Config.syntaxColumn " nop $0".toList 1)) := by rfl
theorem test_render_addi : renderInstr (.addi 2 0 0xffffffff#32) = "\taddi\t$2, $0, -1".toList := by decide
theorem test_render_andi : renderInstr (.andi 2 1 0xffffffff#32) = "\tandi\t$2, $1, 65535".toList := by decide
theorem test_render_lui : renderInstr (.lui 1 0xffff8000#32) = "\tlui\t$1, -32768".toList := by decide
theorem test_image_line : imageLine 3 0x10400003#32 = " 3 :     10400003; % (0C) %".toList := by decide
theorem test_image_read : decodeImage " 3 :     10400003; % (0C) %\n".toList = .ok [.beq 2 0 3] := by decide
theorem test_image_format : decodeImage "10400003".toList =
    .error (.badSyntax .invalidFormat (some 1) (Config.syntaxColumn "10400003".toList 1)) := by rfl

/-! ### Witnesses: what the hypotheses of each statement are met by -/

theorem witness_KindsByMask : 0x00611820#32 &&& Kind.add.mask = Kind.add.pattern := by decide
theorem witness_FallbackExactly : decode 0x03e0003f#32 = .ok (.jrFallback 31) := by decide
theorem witness_IgnoredBits_jr : assignedKind 0x03e00008#32 = some .jr := by decide
theorem witness_IgnoredBits_r : ∃ k ∈ [Kind.add, .sub, .and, .or, .xor], assignedKind 0x014b4fe0#32 = some k := by decide
theorem witness_IgnoredBits_shift : ∃ k ∈ [Kind.sll, .srl, .sra, .lui], assignedKind 0x3de90001#32 = some k := by decide
theorem witness_IgnoredBits_fallback : decode 0x0000000c#32 = .ok (.jrFallback 0) ∧
    decode 0x0000000d#32 = .ok (.jrFallback 0) ∧ 0x0000000c#32 &&& 0x03E00000#32 = 0x0000000d#32 &&& 0x03E00000#32 := by decide
theorem witness_IgnoredBits_fallback_any : decode 0x03e0003f#32 = .ok (.jrFallback 31) ∧
    ((0x0000000c#32).extractLsb' 0 6).toNat ∉ [0, 2, 3, 8, 32, 34, 36, 37, 38] := by decide
theorem witness_SlotsFilled : decode 0x00611820#32 = .ok (.add 3 3 1) := by decide
theorem witness_DecodedWellFormed : decode 0x0a000000#32 = .ok (.j 0xfe000000#32) := by decide
theorem witness_DecodeEncode : (Instr.addi 2 0 0xffff8000#32).wf = true ∧ ∀ rs, Instr.addi 2 0 0xffff8000#32 ≠ .jrFallback rs := by
  decide
theorem witness_EncodeDecode : decode 0x014b4fe0#32 = .ok (.add 9 10 11) ∧ ∀ rs, Instr.add 9 10 11 ≠ .jrFallback rs := by decide
theorem witness_EncodeDecode_fallback : decode 0x03e0003f#32 = .ok (.jrFallback 31) := by decide
theorem witness_AddRule : 0x00611820#32 &&& 0xFC00003F#32 = 0x00000020#32 := by decide
theorem witness_SubRule : 0x00053022#32 &&& 0xFC00003F#32 = 0x00000022#32 := by decide
theorem witness_AndRule : 0x00210024#32 &&& 0xFC00003F#32 = 0x00000024#32 := by decide
theorem witness_OrRule : 0x00403825#32 &&& 0xFC00003F#32 = 0x00000025#32 := by decide
theorem witness_XorRule : 0x00432826#32 &&& 0xFC00003F#32 = 0x00000026#32 := by decide
theorem witness_SllRule : 0x00012040#32 &&& 0xFC00003F#32 = 0x00000000#32 := by decide
theorem witness_SrlRule : 0x00011102#32 &&& 0xFC00003F#32 = 0x00000002#32 := by decide
theorem witness_SraRule : 0x00011903#32 &&& 0xFC00003F#32 = 0x00000003#32 := by decide
theorem witness_AddiRule : 0x2042ffff#32 &&& 0xFC000000#32 = 0x20000000#32 := by decide
theorem witness_AndiRule : 0x302300ff#32 &&& 0xFC000000#32 = 0x30000000#32 := by decide
theorem witness_OriRule : 0x342100f0#32 &&& 0xFC000000#32 = 0x34000000#32 := by decide
theorem witness_XoriRule : 0x38220f0f#32 &&& 0xFC000000#32 = 0x38000000#32 := by decide
theorem witness_LuiRule : 0x3c018000#32 &&& 0xFC000000#32 = 0x3C000000#32 := by decide
theorem witness_LwRule : 0x8c24fffc#32 &&& 0xFC000000#32 = 0x8C000000#32 := by decide
theorem witness_SwRule : 0xac030008#32 &&& 0xFC000000#32 = 0xAC000000#32 := by decide
theorem witness_BeqRule : 0x10400003#32 &&& 0xFC000000#32 = 0x10000000#32 ∧
    (machine [] 3 [] []).getReg 2 = (machine [] 3 [] []).getReg 0 ∧
    (machine [] 3 [(2, 1)] []).getReg 2 ≠ (machine [] 3 [(2, 1)] []).getReg 0 := by decide
theorem witness_BneRule : 0x1420fffe#32 &&& 0xFC000000#32 = 0x14000000#32 ∧
    (machine [] 1 [(1, 1)] []).getReg 1 ≠ (machine [] 1 [(1, 1)] []).getReg 0 ∧
    (machine [] 1 [] []).getReg 1 = (machine [] 1 [] []).getReg 0 := by decide
theorem witness_JRule : 0x08000003#32 &&& 0xFC000000#32 = 0x08000000#32 ∧
    (0 ≤ (0#32).toInt ∧ (0#32).toInt < 2 ^ 25) ∧ (0 ≤ (0x01ffffff#32).toInt ∧ (0x01ffffff#32).toInt < 2 ^ 25) ∧
    (-(2 ^ 25) ≤ (0xfe000000#32).toInt ∧ (0xfe000000#32).toInt < 0) ∧
    (-(2 ^ 25) ≤ (0xffffffff#32).toInt ∧ (0xffffffff#32).toInt < 0) := by decide
theorem witness_JalRule : 0x0c000007#32 &&& 0xFC000000#32 = 0x0C000000#32 := by decide
theorem witness_JrRule : 0x03e00008#32 &&& 0xFC00003F#32 = 0x00000008#32 := by decide
theorem witness_ShiftLaws : (2 : RegIdx) ≠ 0 ∧
    (∃ t, exec (.srl 2 1 4) State.reset = .next t) ∧ (∃ t, exec (.sra 2 1 4) State.reset = .next t) ∧
    (∃ t, exec (.sll 2 1 0) State.reset = .next t) := ⟨by decide, ⟨_, rfl⟩, ⟨_, rfl⟩, ⟨_, rfl⟩⟩
theorem witness_PcTable : (Instr.j 0xfe000000#32).wf = true ∧ ∃ t, exec (.j 0xfe000000#32) State.reset = .next t :=
  ⟨by decide, _, rfl⟩
theorem witness_BranchReachesLabel : -32768 ≤ ((7 : Nat) : Int) - 1 - (3 : Nat) ∧ ((7 : Nat) : Int) - 1 - (3 : Nat) ≤ 32767 ∧
    (machine [] 3 [(2, 1)] []).pc = BitVec.ofNat 32 3 ∧
    (machine [] 3 [(2, 1)] []).getReg 0 = (machine [] 3 [(2, 1)] []).getReg 1 ∧
    (machine [] 3 [(2, 1)] []).getReg 2 ≠ (machine [] 3 [(2, 1)] []).getReg 0 := by decide
theorem witness_RegisterZero : after (step (machine [.add 0 1 1] 0 [(1, 5)] [])) (fun t => t.pc) = some 1 ∧
    (∃ v, hostGetRegfile State.reset = .ok v) := ⟨by decide, _, rfl⟩
theorem witness_SlotZeroUnobservable : after (step (machine [.add 2 0 1] 0 [(1, 5)] [])) (fun t => t.getReg 2) = some 5 ∧
    (∃ r, step { State.reset with status := .faulted 3 } = .fault r) ∧ (∃ r, step State.reset = .refused r) :=
  ⟨by decide, ⟨_, rfl⟩, ⟨_, rfl⟩⟩
theorem witness_OnlyDestinationWritten : after (exec (.addi 1 0 5) State.reset) (fun t => (t.getReg 1, State.reset.getReg 1)) =
    some (5, 0) := by decide
theorem witness_OnlyStoreWritesMemory : after (exec (.sw 1 0 8) (machine [] 0 [(1, 35)] []))
    (fun t => (t.memRead 8, (machine [] 0 [(1, 35)] []).memRead 8)) = some (35, 0) := by decide
theorem witness_ProgramAndKillUntouched : after (step (machine [.sw 1 0 0] 0 [(1, 35)] [])) (fun t => t.memRead 0) =
    some 35 := by decide
theorem witness_StepRunsInstruction :
    (machine [.sll 0 0 0, .jr 0] 1 [] []).status = .running ∧
    (machine [.sll 0 0 0, .jr 0] 1 [] []).insts[(1#32).toNat]? = some (.jr 0) ∧ (1#32).toInt = (1#32).toNat ∧
    (machine [.sll 0 0 0, .jr 0] 1 [] []).kill = false ∧
    ({ machine [.sll 0 0 0, .jr 0] 1 [] [] with kill := true }).kill = true := by decide
theorem witness_FetchedWordRuns : decodeTableWord 32 0x2002ffff = some (.addi 2 0 0xffffffff#32) := by decide
/-- A machine at whose boundary `kill` is seen, whatever the free values are. -/
def killedNow (is : List Instr) (pc : Word) : State :=
  { machine is pc [] [] with kill := true, killAge := Config.killBound }
theorem killedNow_seen (is : List Instr) (pc : Word) : (killedNow is pc).killIsSeen = true := by
  simp [State.killIsSeen, killedNow]
theorem witness_BoundaryStops_clear : (machine [.jr 0] 1 [] []).killIsSeen = false ∧
    (machine [.jr 0] 1 [] []).pc.toInt = (machine [.jr 0] 1 [] []).programLength ∧
    (machine [.jr 0] 0xffffffff [] []).pcOutOfRange ∧ (machine [.jr 0] 2 [] []).pcOutOfRange :=
  ⟨rfl, by decide, .inl (by decide), .inr (by decide)⟩
theorem witness_BoundaryStops_seen : (killedNow [.jr 0] 0).killIsSeen = true ∧
    (0 ≤ (0#32).toInt ∧ (0#32).toInt < (killedNow [.jr 0] 0).programLength) ∧
    ((1#32).toInt = (killedNow [.jr 0] 1).programLength) ∧ (killedNow [.jr 0] 2).pcOutOfRange :=
  ⟨killedNow_seen _ _, by decide, by decide, .inr (by decide)⟩
theorem witness_SimulationFault : (machine [.jr 5, .jr 5, .jr 5] 100 [] []).status = .running ∧
    (machine [.jr 5, .jr 5, .jr 5] 100 [] []).killIsSeen = false ∧
    (machine [.jr 5, .jr 5, .jr 5] 100 [] []).pcOutOfRange :=
  ⟨rfl, rfl, .inr (by decide)⟩
theorem witness_SimulationFault_cause : (machine [.jr 5] 0 [(5, 100)] []).programLength < 2 ^ 31 ∧
    0 ≤ (0#32).toInt ∧ (0#32).toInt < (machine [.jr 5] 0 [(5, 100)] []).programLength ∧
    ∃ t, exec (.jr 5) (machine [.jr 5] 0 [(5, 100)] []) = .next t ∧ t.pcOutOfRange :=
  ⟨by decide, by decide, by decide, _, rfl, .inr (by decide)⟩
theorem witness_FinalStatuses : (∃ t, step (machine [] 0 [] []) = .next t) ∧
    ∃ t, hostMove (.setMemory 0 1) { State.reset with status := .halted } = .next t := ⟨⟨_, rfl⟩, ⟨_, rfl⟩⟩
theorem witness_KillStopsRun : ∃ (n : Nat) (run : Nat → State), (∀ k < n, step (run k) = .next (run (k + 1))) ∧
    (run 0).status = .running ∧ (run 0).kill = true ∧ (run 0).killAge ≤ Config.killBound ∧ (run n).status = .running :=
  ⟨0, fun _ => { machine [.j 0] 0 [] [] with kill := true }, by simp, rfl, rfl, Nat.zero_le _, rfl⟩
theorem witness_StepKeepsInv : Inv (machine [.sw 1 0 8] 0 [(1, 35)] [(4, 7)]) ∧
    ∃ t, step (machine [.sw 1 0 8] 0 [(1, 35)] [(4, 7)]) = .next t :=
  ⟨⟨by decide, by decide, by decide, rfl, Nat.zero_le _⟩, _, rfl⟩
theorem witness_HostKeepsInv : Inv State.reset ∧ (∃ t, hostMove (.load [0x08000000#32]) State.reset = .next t) ∧
    (∃ t, hostMove (.setMemory 4 7) State.reset = .next t) ∧ (∃ t, hostMove .setKill State.reset = .next t) ∧
    ∃ t, hostMove .run { State.reset with loaded := true } = .next t :=
  ⟨⟨rfl, by decide, by decide, trivial, Nat.zero_le _⟩, ⟨_, rfl⟩, ⟨_, rfl⟩, ⟨_, rfl⟩, ⟨_, rfl⟩⟩
theorem witness_HostDuringRun : (machine [.j 0] 0 [] []).status = .running ∧
    ∃ t, hostMove .setKill (machine [.j 0] 0 [] []) = .next t := ⟨rfl, _, rfl⟩
theorem witness_HostOutsideRun : State.reset.status ≠ .running ∧ ({ State.reset with loaded := true }).status = .idle ∧
    ({ State.reset with loaded := true }).loaded = true ∧ ∃ t, hostMove .run { State.reset with loaded := true } = .next t :=
  ⟨by decide, rfl, rfl, _, rfl⟩
theorem witness_LoadAllOrNothing : State.reset.status = .idle ∧ State.reset.loaded = false ∧
    [0x20010001#32, 0xffffffff#32].length < 2 ^ 31 := by decide
theorem witness_ImageReadBack : decodeAll 0 [0x8c010000#32, 0x10400003#32] = .ok [.lw 1 0 0, .beq 2 0 3] := by decide
theorem witness_LoadAllOrNothing_next : ∃ t, hostMove (.load [0x20010001#32]) State.reset = .next t := ⟨_, rfl⟩
theorem witness_HostLoadImage : State.reset.status = .idle ∧ State.reset.loaded = false ∧
    decodeImage " 3 :     10400003; % (0C) %\n".toList = .ok [.beq 2 0 3] ∧ [Instr.beq 2 0 3].length < 2 ^ 31 ∧
    decodeAll 0 [0x10400003#32] = .ok [.beq 2 0 3] := by decide
theorem witness_HostLoadImage_refused : (∃ e, decodeImage "10400003\n".toList = .error e) ∧
    (∀ i, decode 0x04000000#32 ≠ .ok i) ∧ "10400003".toList ≠ [] ∧ '\n' ∉ "10400003".toList ∧
    imageLineWord "10400003".toList = none := by
  refine ⟨⟨_, rfl⟩, fun i h => ?_, by decide, by decide, by decide⟩
  have e : decode 0x04000000#32 = .error (.invalidInstruction 0x04000000#32) := by decide
  rw [e] at h
  contradiction
theorem witness_HostLoadImage_next : ∃ t, hostMove (.loadImage " 0 :     08000000; % (00) %\n".toList) State.reset = .next t :=
  ⟨_, rfl⟩
theorem witness_ReassembleDisassembly : (∀ i ∈ [Instr.lw 4 1 0xfffffffc#32, .jrFallback 31], i.wf = true) ∧
    assemble "\tjr\t$31\n".toList = .ok [0x03e00008#32] := by decide

end Sys2Proof.Tests
end

section
/-! The state, reset and the run cycle: the proofs of the statements of spec/10_state.md (R23 to R37). The layers come first: what
reads and operations see of the storage slot of register 0, where a jump lands, what a register write can change, what a step
does at each boundary, and how `kill` is counted along a run. -/

namespace Sys2Proof.Machine

/-! ### The target of J and JAL (R173) -/

/-- For every address a decoded word can hold, the signed division undoes the shift. -/
theorem jumpIndexUnder_signed_of_inRange {addr : Word} (h : addrInRange addr = true) :
    jumpIndexUnder .signed addr = addr := by
  unfold addrInRange at h
  rw [decide_eq_true_eq] at h
  have hshift : (shl addr 2).toInt = 4 * addr.toInt := by
    unfold shl
    rw [BitVec.toInt_shiftLeft, Nat.shiftLeft_eq]
    rw [BitVec.toInt_eq_toNat_cond] at h ⊢
    have := addr.isLt
    simp only [Int.bmod]
    split at h <;> omega
  apply BitVec.eq_of_toInt_eq
  have hfour : (4#32).toInt = 4 := by decide
  have hdiv : (4 * addr.toInt).tdiv 4 = addr.toInt := Int.mul_tdiv_cancel_left _ (by decide)
  rw [jumpIndexUnder, BitVec.toInt_sdiv, hshift, hfour, hdiv, BitVec.toInt_bmod_cancel]

/-- The target of a decoded J or JAL is the address itself under the top four bits of `pc0 + 1`. -/
theorem State.jumpTarget_of_inRange (s : State) {addr : Word} (h : addrInRange addr = true) :
    s.jumpTarget addr = ((s.pc + 1) &&& 0xF0000000) ||| addr := by
  unfold State.jumpTarget Config.jDiv
  rw [jumpIndexUnder_signed_of_inRange h]
  rfl

/-- Settles O33, one row of R26's table per instruction: J and JAL by their targets, the branches by their comparisons, every
other row being the PC that the instruction's meaning sets. -/
theorem pcTable : Obligations.PcTable := by
  unfold Obligations.PcTable
  intro i s t hwf h
  cases i <;> injection h with h <;> subst h
  case j addr => exact s.jumpTarget_of_inRange hwf
  case jal addr => exact s.jumpTarget_of_inRange hwf
  case beq rs rt imm => simp [State.regsEqual, State.branchTarget, State.nextPc]
  case bne rs rt imm => simp [State.regsDiffer, State.branchTarget, State.nextPc]
  all_goals rfl

/-! ### The registers an instruction changes (R24) -/

/-- A register write changes no register but the one it names. -/
theorem State.eq_of_getReg_setReg_ne {s : State} {i r : RegIdx} {v : Word}
    (h : (s.setReg i v).getReg r ≠ s.getReg r) : r = i := by
  by_contra hri
  rw [State.getReg_setReg, if_neg hri] at h
  split at h
  · next hr => exact h (by rw [hr, State.getReg_zero])
  · exact h rfl

/-- Settles O38. A register that reads differently is not register 0, which always reads 0; the instructions of R24 that write
a register do it by one `setReg`, the others by none. -/
theorem onlyDestinationWritten : Obligations.OnlyDestinationWritten := by
  unfold Obligations.OnlyDestinationWritten
  intro i s t r h hne
  have hr : r ≠ 0 := by
    rintro rfl
    exact hne (t.getReg_zero.trans s.getReg_zero.symm)
  refine ⟨hr, ?_⟩
  cases i <;> injection h with h <;> subst h
  case sw => exact hne rfl
  case beq => exact hne rfl
  case bne => exact hne rfl
  case j => exact hne rfl
  case jr => exact hne rfl
  case jrFallback => exact hne rfl
  all_goals exact State.eq_of_getReg_setReg_ne hne

/-! ### The storage slot of register 0 (R34) -/

section SlotZero

variable (s : State) (x : Word)

/-- No register read sees the slot. -/
@[simp] theorem State.withSlotZero_getReg (r : RegIdx) : (s.withSlotZero x).getReg r = s.getReg r := by
  unfold State.getReg State.withSlotZero
  split
  · rfl
  · next hr =>
    have hne : 0 ≠ r.toNat := fun e => hr (BitVec.eq_of_toNat_eq e.symm)
    exact Vector.getElem_set_ne (by decide) r.isLt hne

@[simp] theorem State.withSlotZero_setReg (i : RegIdx) (v : Word) :
    (s.withSlotZero x).setReg i v = (s.setReg i v).withSlotZero x := by
  unfold State.setReg State.withSlotZero
  by_cases hi : i = 0#5
  · simp [hi]
  · have hne : 0 ≠ i.toNat := fun e => hi (BitVec.eq_of_toNat_eq e.symm)
    simp only [hi, if_false]
    rw [Vector.set_comm _ _ hne]

@[simp] theorem State.withSlotZero_retire (i : RegIdx) (v : Word) :
    (s.withSlotZero x).retire i v = (s.retire i v).withSlotZero x := by
  unfold State.retire
  rw [State.withSlotZero_setReg]
  rfl

@[simp] theorem State.withSlotZero_setPc (p : Word) :
    (s.withSlotZero x).setPc p = (s.setPc p).withSlotZero x := rfl

@[simp] theorem State.withSlotZero_memWrite (a v : Word) :
    (s.withSlotZero x).memWrite a v = (s.memWrite a v).withSlotZero x := rfl

@[simp] theorem State.withSlotZero_memRead (a : Word) : (s.withSlotZero x).memRead a = s.memRead a := rfl

@[simp] theorem State.withSlotZero_nextPc : (s.withSlotZero x).nextPc = s.nextPc := rfl

@[simp] theorem State.withSlotZero_branchTarget (imm : Word) :
    (s.withSlotZero x).branchTarget imm = s.branchTarget imm := rfl

@[simp] theorem State.withSlotZero_jumpTarget (addr : Word) :
    (s.withSlotZero x).jumpTarget addr = s.jumpTarget addr := rfl

@[simp] theorem State.withSlotZero_effectiveAddress (rs : RegIdx) (imm : Word) :
    (s.withSlotZero x).effectiveAddress rs imm = s.effectiveAddress rs imm := by
  simp [State.effectiveAddress]

@[simp] theorem State.withSlotZero_regsEqual (rs rt : RegIdx) :
    (s.withSlotZero x).regsEqual rs rt = s.regsEqual rs rt := by
  simp [State.regsEqual]

@[simp] theorem State.withSlotZero_regsDiffer (rs rt : RegIdx) :
    (s.withSlotZero x).regsDiffer rs rt = s.regsDiffer rs rt := by
  simp [State.regsDiffer]

@[simp] theorem State.withSlotZero_killIsSeen : (s.withSlotZero x).killIsSeen = s.killIsSeen := rfl

@[simp] theorem State.withSlotZero_boundary : (s.withSlotZero x).boundary = s.boundary := rfl

@[simp] theorem State.withSlotZero_status : (s.withSlotZero x).status = s.status := rfl

@[simp] theorem State.withSlotZero_killAge : (s.withSlotZero x).killAge = s.killAge := rfl

/-- The stop at a seen `kill` takes the slot along as it is. -/
theorem State.withSlotZero_stopAtKill : (s.withSlotZero x).stopAtKill = s.stopAtKill.withSlotZero x := by
  unfold State.stopAtKill
  rw [State.withSlotZero_boundary, State.withSlotZero_killAge]
  match s.boundary with
  | .at i => rfl
  | .atEnd => dsimp only; split <;> rfl
  | .outOfRange => dsimp only; split <;> rfl

/-- An outcome with its next state, if it has one, changed by `f`. -/
def mapNext (f : State → State) : Host.Outcome State Fault Refusal → Host.Outcome State Fault Refusal
  | .next t => .next (f t)
  | .fault r => .fault r
  | .refused r => .refused r

/-- Every instruction is made of reads that do not see the slot and of writes that leave it as it is. -/
theorem exec_withSlotZero (i : Instr) :
    exec i (s.withSlotZero x) = mapNext (State.withSlotZero · x) (exec i s) := by
  cases i
  all_goals
    refine congrArg Host.Outcome.next ?_
    simp

theorem cycle_withSlotZero : cycle (s.withSlotZero x) = mapNext (State.withSlotZero · x) (cycle s) := by
  unfold cycle
  rw [State.withSlotZero_killIsSeen, State.withSlotZero_boundary]
  split
  · exact congrArg Host.Outcome.next (s.withSlotZero_stopAtKill x)
  · match s.boundary with
    | .at i => exact exec_withSlotZero s.passBoundary x i
    | .atEnd => rfl
    | .outOfRange => rfl

/-- The commuting diagram of a step and a change of the slot. -/
theorem step_withSlotZero : step (s.withSlotZero x) = mapNext (State.withSlotZero · x) (step s) := by
  unfold step sequencerStep
  rw [State.withSlotZero_status]
  cases s.status with
  | running => exact cycle_withSlotZero s x
  | idle => rfl
  | halted => rfl
  | killed => rfl
  | faulted p => rfl

theorem hostGetRegfile_withSlotZero : hostGetRegfile (s.withSlotZero x) = hostGetRegfile s := by
  simp [hostGetRegfile]

end SlotZero

/-- Settles O37 by the commuting diagram `step_withSlotZero`: the step of the changed state is the step of `s` with the slot of
its next state changed, which no register read sees. -/
theorem slotZeroUnobservable : Obligations.SlotZeroUnobservable := by
  unfold Obligations.SlotZeroUnobservable
  intro s x
  refine ⟨fun t h => ⟨t.withSlotZero x, ?_, t.withSlotZero_getReg x, rfl, rfl, rfl, rfl, rfl, rfl, rfl⟩,
    fun r h => ?_, fun r h => ?_, hostGetRegfile_withSlotZero s x⟩
  all_goals rw [step_withSlotZero, h]; rfl

/-! ### A step at each boundary (R30, R198) -/

/-- The fetch: a PC that is a valid index and the instruction the program holds there. -/
theorem State.boundary_at {s : State} {i : Instr} (hi : s.insts[s.pc.toNat]? = some i) (hpc : s.pc.toInt = s.pc.toNat) :
    s.boundary = .at i := by
  obtain ⟨hlt, -⟩ := List.getElem?_eq_some_iff.mp hi
  obtain ⟨j, hj, hb⟩ := State.boundary_inRange (s := s) (by omega) (by unfold State.programLength; omega)
  rw [hb, Option.some.inj (hj.symm.trans hi)]

/-- With `kill` clear a boundary counts nothing. -/
theorem State.passBoundary_of_clear {s : State} (h : s.kill = false) : s.passBoundary = s := by
  rw [State.passBoundary, if_neg (by simp [h])]

/-- With `kill` set a boundary is counted. -/
theorem State.passBoundary_of_set {s : State} (h : s.kill = true) :
    s.passBoundary = { s with killAge := s.killAge + 1 } := by
  simp [State.passBoundary, h]

section Running

variable {s : State} (hr : s.status = .running)
include hr

theorem step_of_killIsSeen (hk : s.killIsSeen = true) : step s = .next s.stopAtKill := by
  rw [step_running hr, cycle, if_pos hk]

theorem step_of_atEnd (hk : s.killIsSeen = false) (hb : s.boundary = .atEnd) : step s = .next s.halt := by
  rw [step_running hr, cycle, hk, hb]
  rfl

theorem step_of_outOfRange (hk : s.killIsSeen = false) (hb : s.boundary = .outOfRange) :
    step s = .next s.raiseSimulation := by
  rw [step_running hr, cycle, hk, hb]
  rfl

theorem step_of_at {i : Instr} (hk : s.killIsSeen = false) (hb : s.boundary = .at i) :
    step s = exec i s.passBoundary := by
  rw [step_running hr, cycle, hk, hb]
  rfl

/-- With `kill` clear, a step at an instruction is the instruction. -/
theorem step_of_clear_at {i : Instr} (hk : s.kill = false) (hb : s.boundary = .at i) : step s = exec i s := by
  rw [step_of_at hr (State.killIsSeen_of_clear hk) hb, State.passBoundary_of_clear hk]

end Running

/-- `kill` seen at an instruction stops the run as `Killed`. -/
theorem State.stopAtKill_of_at {s : State} {i : Instr} (hb : s.boundary = .at i) : s.stopAtKill = s.stopKilled := by
  unfold State.stopAtKill
  rw [hb]

/-- `kill` seen at the end of the program stops the run as `Killed` or `Halted`. -/
theorem State.stopAtKill_of_atEnd {s : State} (hb : s.boundary = .atEnd) :
    s.stopAtKill = s.stopKilled ∨ s.stopAtKill = s.halt := by
  unfold State.stopAtKill
  rw [hb]
  exact ite_eq_or_eq ..

/-- `kill` seen at a PC out of range stops the run as `Killed` or `Faulted`. -/
theorem State.stopAtKill_of_outOfRange {s : State} (hb : s.boundary = .outOfRange) :
    s.stopAtKill = s.stopKilled ∨ s.stopAtKill = s.raiseSimulation := by
  unfold State.stopAtKill
  rw [hb]
  exact ite_eq_or_eq ..

/-- Settles O43: the boundary is what the PC tests find, and the step there is the stop of that boundary. -/
theorem boundaryStops : Obligations.BoundaryStops := by
  unfold Obligations.BoundaryStops
  intro s hr
  refine ⟨fun hk hp => ?_, fun hk hp => ?_, fun hk h0 h1 => ?_, fun hk hp => ?_, fun hk hp => ?_⟩
  · exact step_of_atEnd hr hk (State.boundary_atEnd hp)
  · exact step_of_outOfRange hr hk (State.boundary_outOfRange hp)
  · obtain ⟨i, -, hb⟩ := State.boundary_inRange h0 h1
    rw [step_of_killIsSeen hr hk, State.stopAtKill_of_at hb]
    rfl
  · rw [step_of_killIsSeen hr hk]
    exact (State.stopAtKill_of_atEnd (State.boundary_atEnd hp)).imp (congrArg _) (congrArg _)
  · rw [step_of_killIsSeen hr hk]
    exact (State.stopAtKill_of_outOfRange (State.boundary_outOfRange hp)).imp (congrArg _) (congrArg _)

/-- Settles O41: with `kill` clear the step is the fetched instruction; with `kill` set it is the stop or, `kill` being unseen,
the instruction after one more counted boundary. -/
theorem stepRunsInstruction : Obligations.StepRunsInstruction := by
  unfold Obligations.StepRunsInstruction
  intro s i hr hi hpc
  have hb : s.boundary = .at i := State.boundary_at hi hpc
  refine ⟨fun hk => step_of_clear_at hr hk hb, fun hk => ?_⟩
  cases hseen : s.killIsSeen with
  | true =>
    left
    rw [step_of_killIsSeen hr hseen, State.stopAtKill_of_at hb]
    rfl
  | false =>
    right
    rw [step_of_at hr hseen hb, State.passBoundary_of_set hk]

/-! ### An instruction placed where the next step fetches (R30, R33) -/

section Placed

variable (s : State) (i : Instr)

theorem State.placeInstr_status : (s.placeInstr i).status = .running := by
  unfold State.placeInstr
  split <;> rfl

theorem State.placeInstr_kill : (s.placeInstr i).kill = false := by
  unfold State.placeInstr
  split <;> rfl

theorem State.placeInstr_getReg (r : RegIdx) : (s.placeInstr i).getReg r = s.getReg r := by
  unfold State.placeInstr
  split <;> rfl

theorem State.placeInstr_memRead (a : Word) : (s.placeInstr i).memRead a = s.memRead a := by
  unfold State.placeInstr
  split <;> rfl

/-- The placed instruction is the one the next boundary fetches. -/
theorem State.placeInstr_boundary : (s.placeInstr i).boundary = .at i := by
  unfold State.placeInstr
  split
  · next h =>
    unfold State.pcInRange at h
    rw [decide_eq_true_eq] at h
    obtain ⟨h0, h1⟩ := h
    obtain ⟨j, hj, -⟩ := State.boundary_inRange h0 h1
    obtain ⟨hlt, -⟩ := List.getElem?_eq_some_iff.mp hj
    exact State.boundary_at (List.getElem?_set_self hlt) (BitVec.toInt_eq_toNat_of_lt (BitVec.toInt_pos_iff.mp h0))
  · exact State.boundary_at rfl rfl

theorem step_placeInstr : step (s.placeInstr i) = exec i (s.placeInstr i) :=
  step_of_clear_at (s.placeInstr_status i) (s.placeInstr_kill i) (s.placeInstr_boundary i)

end Placed

/-- Placing a word that decodes is placing its instruction. -/
theorem State.withFetchWord_of_decodes (s : State) {nbits w : Nat} {i : Instr} (h : decodeTableWord nbits w = some i) :
    s.withFetchWord nbits w = s.placeInstr i := by
  unfold State.withFetchWord State.placeWord
  rw [h]

/-- Settles O42: a word that decodes is placed as its instruction, the one the next boundary fetches, with `kill` clear. -/
theorem fetchedWordRuns : Obligations.FetchedWordRuns := by
  unfold Obligations.FetchedWordRuns
  intro s nbits w i h
  rw [s.withFetchWord_of_decodes h]
  exact ⟨step_placeInstr s i, s.placeInstr_getReg i, s.placeInstr_memRead i⟩

/-! ### `kill` along a run (R35, R197) -/

/-- A stop at a seen `kill` ends the run, whichever stop it is. -/
theorem State.stopAtKill_status_ne_running (s : State) : s.stopAtKill.status ≠ .running := by
  rcases s.stopAtKill_cases with h | ⟨h, -⟩ | ⟨h, -⟩ <;> rw [h] <;> simp

/-- A step with `kill` set after which the machine still runs has passed one more boundary, within the bound. -/
theorem step_counts_unseen_kill {s t : State} (h : step s = .next t) (hk : s.kill = true) (ht : t.status = .running) :
    t.kill = true ∧ t.killAge = s.killAge + 1 ∧ t.killAge ≤ Config.killBound := by
  obtain ⟨-, ⟨-, rfl⟩ | ⟨-, -, rfl⟩ | ⟨-, -, rfl⟩ | ⟨hseen, i, -, -, -, hx⟩⟩ := step_cases h
  · exact absurd ht s.stopAtKill_status_ne_running
  · simp at ht
  · simp at ht
  · obtain ⟨-, -, hkill, hage, -⟩ := exec_sameControl hx
    have hlt := State.killAge_lt_bound hk hseen
    simp only [State.passBoundary_kill, State.passBoundary_killAge, hk, if_true] at hkill hage
    exact ⟨hkill, hage, by omega⟩

/-- Along a chain of steps that starts with `kill` set and still runs, every step is counted, within the bound. -/
theorem killAge_along_run {run : Nat → State} (hk : (run 0).kill = true) (hb : (run 0).killAge ≤ Config.killBound)
    (n : Nat) (hstep : ∀ k < n, step (run k) = .next (run (k + 1))) (hn : (run n).status = .running) :
    (run n).kill = true ∧ (run n).killAge = n + (run 0).killAge ∧ (run n).killAge ≤ Config.killBound := by
  induction n with
  | zero => exact ⟨hk, (Nat.zero_add _).symm, hb⟩
  | succ n ih =>
    have hlast := hstep n (Nat.lt_succ_self n)
    obtain ⟨hrunning, -⟩ := step_cases hlast
    obtain ⟨hkn, hage, -⟩ := ih (fun k hlt => hstep k (Nat.lt_succ_of_lt hlt)) hrunning
    obtain ⟨hk', hage', hb'⟩ := step_counts_unseen_kill hlast hkn hn
    exact ⟨hk', by omega, hb'⟩

/-- Settles O46 by induction on the length of the chain (`killAge_along_run`): the counter at its end is the sum in question. -/
theorem killStopsRun : Obligations.KillStopsRun := by
  unfold Obligations.KillStopsRun
  intro n run hstep _ hk hb hn
  obtain ⟨-, hage, hbound⟩ := killAge_along_run hk hb n hstep hn
  omega

/-! ### Register 0, final statuses, reset (R23, R36, R37) -/

/-- What the host reads of the registers is each register's read. -/
theorem hostGetRegfile_eq_ok {s : State} {v : Vector Word 32} (h : hostGetRegfile s = .ok v) :
    v = Vector.ofFn fun i => s.getReg (BitVec.ofFin i) := by
  unfold hostGetRegfile at h
  split at h
  · contradiction
  · exact (Except.ok.inj h).symm

/-- Settles O36: every read of register 0, the host's too, goes through `getReg`. -/
theorem registerZero : Obligations.RegisterZero := by
  unfold Obligations.RegisterZero
  refine ⟨State.reset.getReg_zero, fun s t _ => t.getReg_zero, fun s v h => ?_⟩
  rw [hostGetRegfile_eq_ok h, Vector.getElem_ofFn]
  exact s.getReg_zero

/-- Settles O45: of the host's moves, loading and `run` need `Idle`, and `setMemory` and setting `kill` keep the status. -/
theorem finalStatuses : Obligations.FinalStatuses := by
  unfold Obligations.FinalStatuses
  refine ⟨fun s t h => (step_cases h).1, fun m s t hfinal h => ?_⟩
  have hidle : s.status ≠ .idle := by
    rcases hfinal with e | e | ⟨p, e⟩ <;> rw [e] <;> simp
  rcases hostMove_cases h with ⟨hst, -⟩ | ⟨-, _, _, -, rfl⟩ | ⟨hst, -⟩ | ⟨-, rfl⟩
  · exact absurd hst hidle
  · rfl
  · exact absurd hst hidle
  · rfl

/-- Settles O48: memory and the program are empty, the status `Idle` claims nothing, and the counter is 0. -/
theorem resetInv : Obligations.ResetInv where
  mem := Memory.wf_reset
  length := by decide
  insts := fun _ h => absurd h List.not_mem_nil
  status := trivial
  killAge := Nat.zero_le _

/-- Settles O50: an empty memory reads 0 everywhere, and the other fields are those that reset writes. -/
theorem resetState : Obligations.ResetState := by
  unfold Obligations.ResetState
  exact ⟨State.reset.getReg_zero, fun _ => rfl, rfl, rfl, rfl, rfl⟩

end Sys2Proof.Machine
end


section
/-! Data memory and the program through a step: the proofs of the statements of spec/20_memory.md (R50 to R67). The layers come
first: what a store can change, and that each stop, each passed boundary and each instruction keeps the machine's invariant. -/

namespace Sys2Proof.Machine

/-! ### The cells an instruction changes (R54, R58) -/

/-- A store changes no cell but the one it names. -/
theorem State.eq_of_memRead_memWrite_ne {s : State} {a b v : Word}
    (h : (s.memWrite b v).memRead a ≠ s.memRead a) : a = b := by
  by_contra hab
  rw [State.memRead_memWrite, if_neg hab] at h
  exact h rfl

/-- The cell a store names reads the word stored. -/
@[simp] theorem State.memRead_memWrite_self (s : State) (a v : Word) : (s.memWrite a v).memRead a = v := by
  rw [State.memRead_memWrite, if_pos rfl]

/-- Settles O39. SW is one `memWrite` at its effective address; every other instruction is made of writes of registers and of the
PC, after which every cell reads as before. -/
theorem onlyStoreWritesMemory : Obligations.OnlyStoreWritesMemory := by
  unfold Obligations.OnlyStoreWritesMemory
  intro i s t a h hne
  cases i <;> injection h with h <;> subst h
  case sw rt rs imm =>
    rw [State.setPc_memRead] at hne
    have ha : a = s.effectiveAddress rs imm := State.eq_of_memRead_memWrite_ne hne
    refine ⟨rt, rs, imm, rfl, ha, ?_⟩
    rw [State.setPc_memRead, ha, State.memRead_memWrite_self]
  all_goals exact absurd rfl hne

/-! ### The program and the kill input (R35, R67) -/

/-- Settles O40: a stop writes the status only, a passed boundary the counter only, and an instruction keeps all control fields
(`exec_sameControl`). -/
theorem programAndKillUntouched : Obligations.ProgramAndKillUntouched := by
  unfold Obligations.ProgramAndKillUntouched
  intro s t h
  obtain ⟨-, ⟨-, rfl⟩ | ⟨-, -, rfl⟩ | ⟨-, -, rfl⟩ | ⟨-, i, -, -, -, hx⟩⟩ := step_cases h
  · rcases s.stopAtKill_cases with e | ⟨e, -⟩ | ⟨e, -⟩ <;> rw [e] <;> exact ⟨rfl, rfl, rfl⟩
  · exact ⟨rfl, rfl, rfl⟩
  · exact ⟨rfl, rfl, rfl⟩
  · obtain ⟨hinsts, hloaded, hkill, -, -⟩ := exec_sameControl hx
    exact ⟨hinsts, hkill, hloaded⟩

/-! ### The invariant through a step (R7, R33, R35, R36, R50) -/

/-- Of a running machine the status says that a program is loaded. -/
theorem State.statusHolds_running {s : State} (hr : s.status = .running) : s.statusHolds ↔ s.loaded = true := by
  unfold State.statusHolds
  rw [hr]

namespace Inv

variable {s : State} (h : Inv s)
include h

/-- The halt is true of a PC at `N`. -/
theorem halt (hp : s.pc.toInt = s.programLength) : Inv s.halt := { h with status := hp }

/-- The fault is true of a PC out of range. -/
theorem raiseSimulation (hp : s.pcOutOfRange) : Inv s.raiseSimulation := { h with status := ⟨rfl, hp⟩ }

/-- The status `Killed` is true where `kill` is set. -/
theorem stopKilled (hk : s.kill = true) : Inv s.stopKilled := { h with status := hk }

/-- Whichever stop a seen `kill` makes, its status is true. -/
theorem stopAtKill (hk : s.kill = true) : Inv s.stopAtKill := by
  rcases s.stopAtKill_cases with e | ⟨e, hp⟩ | ⟨e, hp⟩ <;> rw [e]
  · exact h.stopKilled hk
  · exact h.halt hp
  · exact h.raiseSimulation hp

/-- A boundary at which `kill` is not seen is within the bound, the new count too. -/
theorem passBoundary (hseen : s.killIsSeen = false) : Inv s.passBoundary where
  mem := h.mem
  length := h.length
  insts := h.insts
  status := h.status
  killAge := by
    rw [State.passBoundary_killAge]
    split
    · next hk => exact State.killAge_lt_bound hk hseen
    · exact h.killAge

/-- An instruction of a running machine keeps memory canonical and everything else that the invariant speaks of; where it puts
the PC does not matter, since `Running` claims nothing of the PC. -/
theorem exec {i : Instr} {t : State} (hr : s.status = .running) (hx : Machine.exec i s = .next t) : Inv t := by
  obtain ⟨hinsts, hloaded, -, hage, hstatus⟩ := exec_sameControl hx
  exact {
    mem := exec_keeps_memWf hx h.mem
    length := by
      unfold State.programLength
      rw [hinsts]
      exact h.length
    insts := by
      rw [hinsts]
      exact h.insts
    status := by
      rw [State.statusHolds_running (hstatus.trans hr), hloaded]
      exact (State.statusHolds_running hr).mp h.status
    killAge := by
      rw [hage]
      exact h.killAge }

end Inv

/-- Settles O47, one case per way a step ends (`step_cases`): the three stops, and the instruction after a passed boundary. -/
theorem stepKeepsInv : Obligations.StepKeepsInv := by
  unfold Obligations.StepKeepsInv
  intro s t hinv h
  obtain ⟨hr, ⟨hseen, rfl⟩ | ⟨-, hp, rfl⟩ | ⟨-, hp, rfl⟩ | ⟨hseen, i, -, -, -, hx⟩⟩ := step_cases h
  · exact hinv.stopAtKill (State.kill_of_killIsSeen hseen)
  · exact hinv.halt hp
  · exact hinv.raiseSimulation hp
  · exact (hinv.passBoundary hseen).exec hr hx

end Sys2Proof.Machine
end


section
/-! The decoder and the encoder: the proofs of the statements of spec/30_encoding.md sections 1 to 7 (R71 to R92). The layers
come first: which words are of a kind, what the encoder makes of the slots of a kind, and which bits of a word the decoder reads. -/

namespace Sys2Proof

/-! ### The kind of a word (R78, R79, R82, R86) -/

theorem decode_of_assignedKind {w : Word} {k : Kind} (h : assignedKind w = some k) :
    decode w = .ok (fillSlots k w) := by
  rw [decode, h]

theorem assignedKind_of_opcode_zero {w : Word} (h : fieldOpcode w = 0#6) :
    assignedKind w = kindOfFunct (fieldFunct w) := if_pos h

theorem assignedKind_of_opcode_ne_zero {w : Word} (h : fieldOpcode w ≠ 0#6) :
    assignedKind w = kindOfOpcode (fieldOpcode w) := if_neg h

/-- The decoder refuses by the opcode alone (R82). -/
theorem decode_fails_iff (w : Word) :
    (∀ i, decode w ≠ .ok i) ↔ fieldOpcode w ≠ 0#6 ∧ kindOfOpcode (fieldOpcode w) = none := by
  constructor
  · intro h
    obtain ⟨k, -, hd⟩ | ⟨-, -, hd⟩ | ⟨hk, ho, -⟩ := decode_cases w
    · exact absurd hd (h _)
    · exact absurd hd (h _)
    · exact ⟨ho, (assignedKind_of_opcode_ne_zero ho).symm.trans hk⟩
  · rintro ⟨ho, hk⟩ i hi
    rw [decode, assignedKind_of_opcode_ne_zero ho, hk, if_neg ho] at hi
    cases hi

/-- The slots of a kind never make the fallback. -/
theorem fillSlots_ne_jrFallback (k : Kind) (w : Word) (rs : RegIdx) : fillSlots k w ≠ .jrFallback rs := by
  cases k <;> exact Instr.noConfusion

/-- The fallback is decoded by opcode and function code, and reads the field `rs` (R86). -/
theorem decode_eq_fallback_iff (w : Word) (rs : RegIdx) :
    decode w = .ok (.jrFallback rs) ↔
      fieldOpcode w = 0#6 ∧ kindOfFunct (fieldFunct w) = none ∧ rs = fieldRs w := by
  constructor
  · intro h
    obtain ⟨k, -, hd⟩ | ⟨hk, ho, hd⟩ | ⟨-, -, hd⟩ := decode_cases w
    · exact absurd (Except.ok.inj (hd.symm.trans h)) (fillSlots_ne_jrFallback k w rs)
    · injection hd.symm.trans h with hi
      injection hi with hrs
      exact ⟨ho, (assignedKind_of_opcode_zero ho).symm.trans hk, hrs.symm⟩
    · cases hd.symm.trans h
  · rintro ⟨ho, hk, rfl⟩
    rw [decode, assignedKind_of_opcode_zero ho, hk, if_pos ho]
    rfl

theorem kindOfOpcode_eq_none_iff (o : BitVec 6) :
    o ≠ 0#6 ∧ kindOfOpcode o = none ↔ o.toNat ∉ [0, 2, 3, 4, 5, 8, 12, 13, 14, 15, 35, 43] := by
  revert o; decide

theorem kindOfFunct_eq_none_iff (f : BitVec 6) :
    kindOfFunct f = none ↔ f.toNat ∉ [0, 2, 3, 8, 32, 34, 36, 37, 38] := by
  revert f; decide

/-- Settles O3: the decoder refuses by the opcode alone (`decode_fails_iff`), on the opcodes outside the table. -/
theorem invalidExactly : Obligations.InvalidExactly := by
  unfold Obligations.InvalidExactly
  intro w
  rw [decode_fails_iff, kindOfOpcode_eq_none_iff, fieldOpcode]

/-- Settles O4: the fallback's condition (`decode_eq_fallback_iff`) with the function codes written out. -/
theorem fallbackExactly : Obligations.FallbackExactly := by
  unfold Obligations.FallbackExactly
  intro w rs
  rw [decode_eq_fallback_iff, kindOfFunct_eq_none_iff, ← BitVec.toNat_inj]
  rfl

/-! ### Mask and match (R78) -/

theorem Kind.mask_eq (k : Kind) : k.mask = if k.format = .r then 0xFC00003F#32 else 0xFC000000#32 := by
  cases k <;> rfl

theorem Kind.funct_of_format_ne_r {k : Kind} (h : k.format ≠ .r) : k.funct = 0#6 := by
  revert h; cases k <;> decide

/-- Mask and match say what opcode and function code say. -/
theorem and_mask_eq_pattern_iff (k : Kind) (w : Word) : w &&& k.mask = k.pattern ↔ assignedKind w = some k := by
  rw [assignedKind_eq_some, Kind.mask_eq, ← Laws.EncodeMatches.pattern_eq]
  by_cases hf : k.format = .r
  · rw [if_pos hf, and_functMask]
    constructor
    · intro h
      have hfields := fields_place k.opcode k.funct
      rw [← h, (fields_place _ _).1, (fields_place _ _).2] at hfields
      exact ⟨hfields.1, fun _ => hfields.2⟩
    · rintro ⟨ho, hfun⟩
      rw [ho, hfun hf]
  · have hplace : place 26 k.opcode ||| place 0 k.funct = place 26 k.opcode := by
      rw [Kind.funct_of_format_ne_r hf]
      exact BitVec.or_zero
    rw [if_neg hf, and_opcodeMask, hplace]
    constructor
    · intro h
      have hopcode := opcode_place k.opcode
      rw [← h, opcode_place] at hopcode
      exact ⟨hopcode, fun e => absurd e hf⟩
    · rintro ⟨ho, -⟩
      rw [ho]

/-- Settles O2: mask and match select by opcode and function code (`and_mask_eq_pattern_iff`), so a word has one kind. -/
theorem kindsByMask : Obligations.KindsByMask := by
  unfold Obligations.KindsByMask
  refine ⟨and_mask_eq_pattern_iff, fun k => by cases k <;> rfl, fun k l w hk hl => ?_⟩
  rw [and_mask_eq_pattern_iff] at hk hl
  exact Option.some.inj (hk.symm.trans hl)

/-! ### Decoding what is encoded (R86, R88 to R91) -/

theorem assignedKind_encodeSlots (k : Kind) (s : Slots) : assignedKind (encodeSlots k s) = some k := by
  rw [assignedKind_eq_some]
  cases hf : k.format with
  | r =>
    obtain ⟨ho, -, -, -, -, hfun⟩ := fields_encodeR hf s
    exact ⟨ho, fun _ => hfun⟩
  | i => exact ⟨(fields_encodeI hf s).1, Format.noConfusion⟩
  | j => exact ⟨(fields_encodeJ hf s).1, Format.noConfusion⟩

/-- The slots read back from the encoder's word, one case per format: each field is its slot, immediate and address reduced. -/
theorem fillSlots_encode (i : Instr) : fillSlots i.kind (encode i) = i.canonical := by
  unfold encode
  cases hf : i.kind.format with
  | r =>
    obtain ⟨-, hrs, hrt, hrd, hsa, -⟩ := fields_encodeR hf i.slots
    generalize encodeSlots i.kind i.slots = w at *
    cases i <;> cases hf <;> simp only [fillSlots, Instr.kind, hrs, hrt, hrd, hsa] <;> rfl
  | i =>
    obtain ⟨-, hrs, hrt, himm⟩ := fields_encodeI hf i.slots
    generalize encodeSlots i.kind i.slots = w at *
    cases i <;> cases hf <;> simp only [fillSlots, Instr.kind, hrs, hrt, himm] <;> rfl
  | j =>
    obtain ⟨-, haddr⟩ := fields_encodeJ hf i.slots
    generalize encodeSlots i.kind i.slots = w at *
    cases i <;> cases hf <;> simp only [fillSlots, Instr.kind, haddr] <;> rfl

/-- Decoding an instruction's word, whatever its slots. -/
@[simp] theorem decode_encode (i : Instr) : decode (encode i) = .ok i.canonical := by
  rw [← fillSlots_encode]
  exact decode_of_assignedKind (assignedKind_encodeSlots i.kind i.slots)

/-- A well-formed instruction is read back as it is, but for the fallback. -/
theorem Instr.canonical_of_wf {i : Instr} (h : i.wf = true) (hf : ∀ rs, i ≠ .jrFallback rs) : i.canonical = i := by
  cases i with
  | add _ _ _ | sub _ _ _ | and _ _ _ | or _ _ _ | xor _ _ _ | sll _ _ _ | srl _ _ _ | sra _ _ _ | jr _ => rfl
  | addi _ _ _ | andi _ _ _ | ori _ _ _ | xori _ _ _ | lw _ _ _ | sw _ _ _ | beq _ _ _ | bne _ _ _ | lui _ _ =>
    rw [Instr.canonical, sext16_of_inRange h]
  | j _ | jal _ => rw [Instr.canonical, sext26_of_inRange h]
  | jrFallback rs => exact absurd rfl (hf rs)

/-- The word of a well-formed instruction decodes to it, but for the fallback. -/
theorem decode_encode_of_wf {i : Instr} (h : i.wf = true) (hf : ∀ rs, i ≠ .jrFallback rs) :
    decode (encode i) = .ok i := by
  rw [decode_encode, Instr.canonical_of_wf h hf]

/-- Settles O8: the word of an instruction is of its kind, and its fields are the slots, reduced (`decode_encode`); the reduction
changes no well-formed instruction but the fallback, which becomes JR with the same slots. -/
theorem decodeEncode : Obligations.DecodeEncode := by
  unfold Obligations.DecodeEncode
  refine ⟨fun i => decode_encode_of_wf, decode_encode, fun i h => ?_⟩
  by_cases hf : ∃ rs, i = .jrFallback rs
  · obtain ⟨rs, rfl⟩ := hf
    exact ⟨rfl, rfl⟩
  · rw [Instr.canonical_of_wf h fun rs e => hf ⟨rs, e⟩]
    exact ⟨rfl, rfl⟩

/-! ### The slots of a decoded word (R74 to R76, R80) -/

theorem wf_fillSlots (k : Kind) (w : Word) : (fillSlots k w).wf = true := by
  cases k with
  | add | sub | and | or | xor | sll | srl | sra | jr => rfl
  | addi | andi | ori | xori | lw | sw | beq | bne | lui => exact immInRange_sext16 w
  | j | jal => exact addrInRange_sext26 w

theorem wf_of_decode {w : Word} {i : Instr} (h : decode w = .ok i) : i.wf = true := by
  obtain ⟨k, -, hd⟩ | ⟨-, -, hd⟩ | ⟨-, -, hd⟩ := decode_cases w <;> cases hd.symm.trans h
  · exact wf_fillSlots k w
  · rfl

/-- Settles O7: the immediate and the address are extended fields. -/
theorem decodedWellFormed : Obligations.DecodedWellFormed := fun _ _ => wf_of_decode

/-- Settles O6, kind by kind: the fallback fills the shape of JR. -/
theorem slotsFilled : Obligations.SlotsFilled := by
  unfold Obligations.SlotsFilled
  intro w i h
  obtain ⟨k, -, hd⟩ | ⟨-, -, hd⟩ | ⟨-, -, hd⟩ := decode_cases w <;> cases hd.symm.trans h
  · cases k <;> exact ⟨rfl, rfl, rfl, rfl, rfl, rfl⟩
  · exact ⟨rfl, rfl, rfl, rfl, rfl, rfl⟩

/-! ### Encoding what is decoded (R81, R86, R92) -/

/-- A field of a word, put back in place, is the word with the other bits cleared. -/
theorem place_extractLsb' (w : Word) (lo n : Nat) :
    place lo (w.extractLsb' lo n) = w &&& place lo (BitVec.allOnes n) := by
  apply BitVec.eq_of_getLsbD_eq
  intro k hk
  simp only [place, BitVec.getLsbD_and, BitVec.getLsbD_shiftLeft, BitVec.getLsbD_setWidth, BitVec.getLsbD_extractLsb',
    BitVec.getLsbD_allOnes]
  by_cases hlo : k < lo
  · simp [hlo]
  · have hsum : lo + (k - lo) = k := by omega
    have hsub : k - lo < 32 := by omega
    simp [hlo, hk, hsum, hsub, Bool.and_comm]

theorem place_fieldOpcode (w : Word) : place 26 (fieldOpcode w) = w &&& 0xFC000000#32 := (and_opcodeMask w).symm

theorem place_fieldRs (w : Word) : place 21 (fieldRs w) = w &&& 0x03E00000#32 := place_extractLsb' w 21 5

theorem place_fieldRt (w : Word) : place 16 (fieldRt w) = w &&& 0x001F0000#32 := place_extractLsb' w 16 5

theorem place_fieldRd (w : Word) : place 11 (fieldRd w) = w &&& 0x0000F800#32 := place_extractLsb' w 11 5

theorem place_fieldSa (w : Word) : place 6 (fieldSa w) = w &&& 0x000007C0#32 := place_extractLsb' w 6 5

theorem place_fieldFunct (w : Word) : place 0 (fieldFunct w) = w &&& 0x0000003F#32 := place_extractLsb' w 0 6

theorem place_zero (lo n : Nat) : place lo 0#n = 0#32 := by simp [place]

/-! The encoder drops what sign extension adds (R89). -/

theorem sext16_and_low (v : Word) : sext16 v &&& 0xFFFF#32 = v &&& 0xFFFF#32 := by
  apply BitVec.eq_of_getLsbD_eq
  intro k hk
  simp only [sext16, BitVec.getLsbD_and, BitVec.getLsbD_signExtend, BitVec.getLsbD_extractLsb']
  interval_cases k <;> simp

theorem sext26_and_low (v : Word) : sext26 v &&& 0x3FFFFFF#32 = v &&& 0x3FFFFFF#32 := by
  apply BitVec.eq_of_getLsbD_eq
  intro k hk
  simp only [sext26, BitVec.getLsbD_and, BitVec.getLsbD_signExtend, BitVec.getLsbD_extractLsb']
  interval_cases k <;> simp

/-- The word encoded from what is decoded, one case per format: each field of the shape is put back in its place, and the fields
outside the shape, the ignored bits, are 0. -/
theorem encode_fillSlots {w : Word} {k : Kind} (h : assignedKind w = some k) :
    encode (fillSlots k w) = w &&& ~~~k.ignored := by
  obtain ⟨ho, hfun⟩ := (assignedKind_eq_some w k).mp h
  unfold encode encodeSlots
  rw [kind_fillSlots, ← ho]
  cases hf : k.format with
  | r =>
    rw [← hfun hf]
    cases k <;> cases hf <;>
      simp [fillSlots, Instr.slots, emptySlots, place_fieldOpcode, place_fieldRs, place_fieldRt, place_fieldRd,
        place_fieldSa, place_fieldFunct, place_zero, Kind.ignored, ← BitVec.and_or_distrib_left]
  | i =>
    cases k <;> cases hf <;>
      simp [fillSlots, Instr.slots, emptySlots, place_fieldOpcode, place_fieldRs, place_fieldRt, fieldImm, sext16_and_low,
        place_zero, Kind.ignored, ← BitVec.and_or_distrib_left]
  | j =>
    cases k <;> cases hf <;>
      simp [fillSlots, Instr.slots, place_fieldOpcode, fieldAddr, sext26_and_low, Kind.ignored,
        ← BitVec.and_or_distrib_left]

theorem and_not_eq_self_iff (w m : Word) : w &&& ~~~m = w ↔ w &&& m = 0 := by
  constructor
  · intro h
    rw [← h, BitVec.and_assoc, BitVec.not_and_self]
    exact BitVec.and_zero
  · intro h
    calc w &&& ~~~m = (w &&& m) ||| (w &&& ~~~m) := by rw [h]; exact BitVec.zero_or.symm
      _ = w := by rw [← BitVec.and_or_distrib_left, BitVec.or_not_self, BitVec.and_allOnes]

/-- Settles O9: what is decoded from a word of a kind encodes as the word without the bits that the kind ignores
(`encode_fillSlots`); of a fallback word the encoder keeps the field `rs` alone. -/
theorem encodeDecode : Obligations.EncodeDecode := by
  unfold Obligations.EncodeDecode
  intro w i h
  obtain ⟨k, hk, hd⟩ | ⟨-, -, hd⟩ | ⟨-, -, hd⟩ := decode_cases w <;> cases hd.symm.trans h
  · refine ⟨fun _ => ?_, fun rs e => absurd e (fillSlots_ne_jrFallback k w rs)⟩
    rw [encode_fillSlots hk, kind_fillSlots]
    exact ⟨rfl, and_not_eq_self_iff w k.ignored⟩
  · refine ⟨fun hf => absurd rfl (hf _), fun _ _ => ?_⟩
    have hfunct : place 0 Kind.jr.funct = 0x00000008#32 := rfl
    simp [encode, encodeSlots, Instr.kind, Instr.slots, Kind.format, Kind.opcode, emptySlots, place_zero, place_fieldRs,
      hfunct]

/-! ### The bits the decoder does not read (R81) -/

section Ignored

variable {w w' : Word} {k : Kind} (hk : assignedKind w = some k)
include hk

/-- Clearing the ignored bits does not change what is decoded: the cleared word is the one that encodes it. -/
theorem decode_clear_ignored : decode (w &&& ~~~k.ignored) = decode w := by
  rw [← encode_fillSlots hk, decode_encode, decode_of_assignedKind hk,
    Instr.canonical_of_wf (wf_fillSlots k w) (fillSlots_ne_jrFallback k w)]

/-- The ignored bits do not select the kind. -/
theorem assignedKind_of_and_ignored (h : w' &&& ~~~k.ignored = w &&& ~~~k.ignored) : assignedKind w' = some k := by
  have hmask : ~~~k.ignored &&& k.mask = k.mask := by cases k <;> decide
  rw [← and_mask_eq_pattern_iff] at hk ⊢
  rw [← hk, ← hmask, ← BitVec.and_assoc, h, BitVec.and_assoc]

/-- Two words that differ in ignored bits only decode to the same instruction. -/
theorem decode_eq_of_and_ignored (h : w' &&& ~~~k.ignored = w &&& ~~~k.ignored) : decode w' = decode w := by
  rw [← decode_clear_ignored hk, ← decode_clear_ignored (assignedKind_of_and_ignored hk h), h]

end Ignored

/-- Some bits of `w` replaced by those of `x`, seen without them. -/
theorem replace_and_not (w x m : Word) : ((w &&& ~~~m) ||| (x &&& m)) &&& ~~~m = w &&& ~~~m := by
  rw [BitVec.and_or_distrib_right]
  simp [BitVec.and_assoc]

/-- A word of a kind with its ignored bits replaced. -/
theorem decode_replace_ignored {w m : Word} {k : Kind} (hk : assignedKind w = some k) (hm : k.ignored = m) (x : Word) :
    decode ((w &&& ~~~m) ||| (x &&& m)) = decode w := by
  subst hm
  exact decode_eq_of_and_ignored hk (replace_and_not w x k.ignored)

/-! A field of a word made of bits of two words, where one of the masks covers the field and the other misses it. -/

theorem extractLsb'_and_of_ones {w m : Word} {lo n : Nat} (h : m.extractLsb' lo n = BitVec.allOnes n) :
    (w &&& m).extractLsb' lo n = w.extractLsb' lo n := by
  rw [BitVec.extractLsb'_and, h, BitVec.and_allOnes]

theorem extractLsb'_blend_left {w x a b : Word} {lo n : Nat} (ha : a.extractLsb' lo n = BitVec.allOnes n)
    (hb : b.extractLsb' lo n = 0#n) : ((w &&& a) ||| (x &&& b)).extractLsb' lo n = w.extractLsb' lo n := by
  rw [BitVec.extractLsb'_or, extractLsb'_and_of_ones ha, BitVec.extractLsb'_and, hb, BitVec.and_zero, BitVec.or_zero]

theorem extractLsb'_blend_right {w x a b : Word} {lo n : Nat} (ha : a.extractLsb' lo n = 0#n)
    (hb : b.extractLsb' lo n = BitVec.allOnes n) : ((w &&& a) ||| (x &&& b)).extractLsb' lo n = x.extractLsb' lo n := by
  rw [BitVec.or_comm, extractLsb'_blend_left hb ha]

/-- A fallback word in which opcode and `rs` are kept and the function code is again an unknown one. -/
theorem decode_eq_of_fallback {w w' : Word} {rs : RegIdx} (h : decode w = .ok (.jrFallback rs))
    (ho : fieldOpcode w' = fieldOpcode w) (hrs : fieldRs w' = fieldRs w)
    (hf : kindOfFunct (fieldFunct w') = none) : decode w' = decode w := by
  rw [h, decode_eq_fallback_iff, ho, hrs]
  obtain ⟨ho, -, hrs⟩ := (decode_eq_fallback_iff w rs).mp h
  exact ⟨ho, hf, hrs⟩

/-- Settles O5: the ignored bits of a kind are not read (`decode_replace_ignored`), and of a fallback word only opcode, function
code and `rs` are (`decode_eq_of_fallback`). -/
theorem ignoredBits : Obligations.IgnoredBits := by
  unfold Obligations.IgnoredBits
  refine ⟨fun w x hk => decode_replace_ignored (m := 0x001FFFC0#32) hk rfl x, ?_, ?_, ?_, ?_, ?_⟩
  · rintro w x ⟨k, hmem, hk⟩
    have hm : k.ignored = 0x000007C0#32 := by revert hmem; cases k <;> decide
    exact decode_replace_ignored hk hm x
  · rintro w x ⟨k, hmem, hk⟩
    have hm : k.ignored = 0x03E00000#32 := by revert hmem; cases k <;> decide
    exact decode_replace_ignored hk hm x
  · intro w w' rs rs' h h' hbits
    obtain ⟨ho, -, -⟩ := (decode_eq_fallback_iff w rs).mp h
    obtain ⟨ho', hf', -⟩ := (decode_eq_fallback_iff w' rs').mp h'
    have hrs : fieldRs w' = fieldRs w := by
      rw [fieldRs, fieldRs, ← extractLsb'_and_of_ones (m := 0x03E00000#32) rfl, ← hbits, extractLsb'_and_of_ones rfl]
    exact decode_eq_of_fallback h (ho'.trans ho.symm) hrs hf'
  · intro w x rs h
    obtain ⟨-, hf, -⟩ := (decode_eq_fallback_iff w rs).mp h
    refine decode_eq_of_fallback h (extractLsb'_blend_left rfl rfl) (extractLsb'_blend_left rfl rfl) ?_
    rwa [fieldFunct, extractLsb'_blend_left rfl rfl]
  · intro w x rs h hx
    refine decode_eq_of_fallback h (extractLsb'_blend_left rfl rfl) (extractLsb'_blend_left rfl rfl) ?_
    rwa [fieldFunct, extractLsb'_blend_right rfl rfl, kindOfFunct_eq_none_iff]

/-- Settles O1, word by word of the table. -/
theorem decodeVectors : Obligations.DecodeVectors := by
  unfold Obligations.DecodeVectors
  decide

end Sys2Proof

namespace Sys2Proof.Machine

/-! ### A branch to a label (R105, R171, R172) -/

/-- A displacement that fits the field is decoded as it was encoded. -/
theorem sext16_branchDisplacement {k n : Nat} (hlo : -32768 ≤ (k : Int) - 1 - n) (hhi : (k : Int) - 1 - n ≤ 32767) :
    sext16 (branchDisplacement k n) = branchDisplacement k n := by
  have hv : (branchDisplacement k n).toInt = (k : Int) - 1 - n := by
    rw [branchDisplacement, BitVec.toInt_ofInt_eq_self (by decide) (by omega) (by omega)]
  apply sext16_of_inRange
  rw [immInRange, hv, decide_eq_true_eq]
  exact ⟨hlo, hhi⟩

/-- The displacement leads from the branch to the label, modulo `2^32`. -/
theorem State.branchTarget_branchDisplacement {s : State} {k n : Nat} (hpc : s.pc = BitVec.ofNat 32 n) :
    s.branchTarget (branchDisplacement k n) = BitVec.ofNat 32 k := by
  have hone : (1#32 : Word) = BitVec.ofInt 32 1 := rfl
  rw [State.branchTarget, State.nextPc, hpc, branchDisplacement, hone, ← BitVec.ofInt_natCast, ← BitVec.ofInt_natCast,
    ← BitVec.ofInt_add, ← BitVec.ofInt_add]
  congr 1
  omega

/-- Settles O34: the encoded displacement is decoded unchanged, and the taken branch adds it to `pc0 + 1`. -/
theorem branchReachesLabel : Obligations.BranchReachesLabel := by
  unfold Obligations.BranchReachesLabel
  intro rs rt k n s hlo hhi hpc
  have htarget := State.branchTarget_branchDisplacement (k := k) hpc
  constructor
  · intro heq
    refine ⟨_, _, decode_encode _, rfl, ?_⟩
    rw [State.setPc_pc, sext16_branchDisplacement hlo hhi, State.regsEqual, decide_eq_true heq]
    exact htarget
  · intro hne
    refine ⟨_, _, decode_encode _, rfl, ?_⟩
    rw [State.setPc_pc, sext16_branchDisplacement hlo hhi, State.regsDiffer, decide_eq_true hne]
    exact htarget

end Sys2Proof.Machine
end


section
/-! Texts, the hexadecimal word and the image: the proofs of the statements of spec/30_encoding.md R83, R84, R90, R109, R110 and of
loading (spec/60_exceptions.md R192). The layers come first: splitting and trimming, numerals, the words of a list decoded in
order, and the lines of an image. -/

namespace Sys2Proof.Machine

/-! ### Splitting and trimming -/

theorem splitAt_of_notMem {sep : Char} {t : Text} (h : sep ∉ t) : splitAt sep t = [t] := by
  induction t with
  | nil => rfl
  | cons c cs ih =>
    obtain ⟨hc, hcs⟩ := List.ne_and_not_mem_of_not_mem_cons h
    rw [splitAt, if_neg (Ne.symm hc), ih hcs]

theorem splitAt_append_sep {sep : Char} {t : Text} (h : sep ∉ t) (r : Text) :
    splitAt sep (t ++ sep :: r) = t :: splitAt sep r := by
  induction t with
  | nil => rw [List.nil_append, splitAt, if_pos rfl]
  | cons c cs ih =>
    obtain ⟨hc, hcs⟩ := List.ne_and_not_mem_of_not_mem_cons h
    rw [List.cons_append, splitAt, if_neg (Ne.symm hc), ih hcs]

theorem trimStart_cons {c : Char} (h : isSpaceChar c = false) (t : Text) : trimStart (c :: t) = c :: t :=
  List.dropWhile_cons_of_neg (by simp [h])

theorem trimStart_append {a : Text} (h : ∀ c ∈ a, isSpaceChar c = true) (t : Text) :
    trimStart (a ++ t) = trimStart t :=
  List.dropWhile_append_of_pos h

/-! ### Numerals -/

theorem hexValue_lowerDigits : ∀ d < 16, hexValue (lowerDigits.getD d '0') = some d := by decide

theorem isDigitChar_lowerDigits : ∀ d < 10, isDigitChar (lowerDigits.getD d '0') = true := by decide

theorem isAlnumChar_lowerDigits : ∀ d < 16, isAlnumChar (lowerDigits.getD d '0') = true := by decide

theorem isAlnumChar_upperDigits : ∀ d < 16, isAlnumChar (upperDigits.getD d '0') = true := by decide

/-- One digit read. -/
theorem numeralFrom_digit {base d : Nat} (hd : d < base) (hb : base ≤ 16) (acc : Nat) (t : Text) :
    numeralFrom base acc (lowerDigits.getD d '0' :: t) = numeralFrom base (acc * base + d) t := by
  rw [numeralFrom, hexValue_lowerDigits d (by omega)]
  exact if_pos hd

theorem numeralFrom_append (base acc : Nat) (s t : Text) :
    numeralFrom base acc (s ++ t) = (numeralFrom base acc s).bind (numeralFrom base · t) := by
  induction s generalizing acc with
  | nil => rfl
  | cons c cs ih =>
    rw [List.cons_append, numeralFrom, numeralFrom]
    cases hexValue c with
    | none => rfl
    | some d =>
      dsimp only
      split
      · exact ih _
      · rfl

section Digits

variable {digits : List Char} {base : Nat}

theorem digitsOf_ne_nil (fuel n : Nat) : digitsOf digits base (fuel + 1) n ≠ [] := by
  rw [digitsOf]
  split
  · exact List.cons_ne_nil _ _
  · exact List.append_ne_nil_of_right_ne_nil _ (List.cons_ne_nil _ _)

/-- Every character of a numeral is a digit of its base. -/
theorem forall_mem_digitsOf {p : Char → Prop} (hb : 0 < base) (h : ∀ d < base, p (digits.getD d '0')) (fuel n : Nat) :
    ∀ c ∈ digitsOf digits base fuel n, p c := by
  induction fuel generalizing n with
  | zero => exact fun _ hc => absurd hc List.not_mem_nil
  | succ fuel ih =>
    intro c hc
    rw [digitsOf] at hc
    split at hc
    · next hn => exact List.mem_singleton.mp hc ▸ h n hn
    · rcases List.mem_append.mp hc with hc | hc
      · exact ih _ c hc
      · exact List.mem_singleton.mp hc ▸ h _ (Nat.mod_lt n hb)

/-- The numeral of a positive number begins with a digit that is not 0. -/
theorem digitsOf_leading (hb : 2 ≤ base) {fuel n : Nat} (hpos : 0 < n) (hn : n < fuel) :
    ∃ d t, 0 < d ∧ d < base ∧ digitsOf digits base fuel n = digits.getD d '0' :: t := by
  induction fuel generalizing n with
  | zero => omega
  | succ fuel ih =>
    rw [digitsOf]
    split
    · next hlt => exact ⟨n, [], hpos, hlt, rfl⟩
    · next hge =>
      have hdiv : n / base < n := Nat.div_lt_self hpos hb
      obtain ⟨d, t, hd, hdb, ht⟩ := ih (n := n / base) (Nat.div_pos (by omega) (by omega)) (by omega)
      exact ⟨d, t ++ [digits.getD (n % base) '0'], hd, hdb, by rw [ht]; rfl⟩

/-- The numeral of a number is read as that number. -/
theorem numeralFrom_digitsOf (hb : 2 ≤ base) (hb' : base ≤ 16) {fuel n : Nat} (hn : n < fuel) :
    numeralFrom base 0 (digitsOf lowerDigits base fuel n) = some n := by
  induction fuel generalizing n with
  | zero => omega
  | succ fuel ih =>
    rw [digitsOf]
    split
    · next hlt =>
      rw [numeralFrom_digit hlt hb', Nat.zero_mul, Nat.zero_add]
      rfl
    · next hge =>
      have hdiv : n / base < n := Nat.div_lt_self (by omega) hb
      rw [numeralFrom_append, ih (by omega), Option.bind_some, numeralFrom_digit (Nat.mod_lt n (by omega)) hb',
        Nat.div_add_mod']
      rfl

end Digits

/-! ### The hexadecimal form of a word (R83, R90) -/

/-- Digits read in order. -/
theorem numeralFrom_map_digits {base : Nat} (hb : base ≤ 16) {ds : List Nat} (h : ∀ d ∈ ds, d < base) (acc : Nat) :
    numeralFrom base acc (ds.map fun d => lowerDigits.getD d '0') = some (ds.foldl (fun a d => a * base + d) acc) := by
  induction ds generalizing acc with
  | nil => rfl
  | cons d ds ih =>
    obtain ⟨hd, hds⟩ := List.forall_mem_cons.mp h
    rw [List.map_cons, numeralFrom_digit hd hb, ih hds, List.foldl_cons]

/-- The eight digits of a word, first digit first. -/
def nibbles (w : Word) : List Nat := nibblePositions.map fun k => (w.extractLsb' k 4).toNat

theorem hexWord_eq_map (w : Word) : hexWord w = (nibbles w).map fun d => lowerDigits.getD d '0' := rfl

theorem nibbles_lt (w : Word) : ∀ d ∈ nibbles w, d < 16 := by
  intro d hd
  obtain ⟨k, -, rfl⟩ := List.mem_map.mp hd
  exact (w.extractLsb' k 4).isLt

/-- The eight digits make up the word. -/
theorem foldl_nibbles (w : Word) : (nibbles w).foldl (fun a d => a * 16 + d) 0 = w.toNat := by
  have hw := w.isLt
  simp only [nibbles, nibblePositions, List.map_cons, List.map_nil, List.foldl_cons, List.foldl_nil,
    BitVec.extractLsb'_toNat, Nat.shiftRight_eq_div_pow]
  omega

@[simp] theorem length_hexWord (w : Word) : (hexWord w).length = 8 := rfl

theorem forall_mem_hexWord {p : Char → Prop} (h : ∀ d < 16, p (lowerDigits.getD d '0')) (w : Word) :
    ∀ c ∈ hexWord w, p c := by
  intro c hc
  rw [hexWord_eq_map] at hc
  obtain ⟨d, hd, rfl⟩ := List.mem_map.mp hc
  exact h d (nibbles_lt w d hd)

/-- The hexadecimal form of a word is read as that word. -/
@[simp] theorem parseHexWord_hexWord (w : Word) : parseHexWord (hexWord w) = some w := by
  have hvalue : numeral 16 (hexWord w) = some w.toNat := by
    rw [numeral, if_neg (List.ne_nil_of_length_eq_add_one (length_hexWord w)), hexWord_eq_map,
      numeralFrom_map_digits (by decide) (nibbles_lt w), foldl_nibbles]
  rw [parseHexWord, if_pos (length_hexWord w), hvalue, Option.map_some, BitVec.ofNat_toNat, BitVec.setWidth_eq]

/-- Settles O55: eight digits, each in the table of digits, and the value of the numeral is the word (`foldl_nibbles`). -/
theorem hexWordForm : Obligations.HexWordForm := by
  unfold Obligations.HexWordForm
  exact fun w => ⟨length_hexWord w, forall_mem_hexWord (by decide) w, parseHexWord_hexWord w⟩

/-! ### Words decoded in order (R84, R192) -/

theorem decodeAll_cons_of_ok {w : Word} {i : Instr} (h : decode w = .ok i) (n : Nat) (ws : List Word) :
    decodeAll n (w :: ws) = (decodeAll (n + 1) ws).map (i :: ·) := by
  rw [decodeAll, h]
  cases decodeAll (n + 1) ws <;> rfl

theorem decodeAll_cons_of_fails {w : Word} (h : ∀ i, decode w ≠ .ok i) (n : Nat) (ws : List Word) :
    decodeAll n (w :: ws) = .error (w, n) := by
  rw [decodeAll]
  cases hd : decode w with
  | ok i => exact absurd hd (h i)
  | error e => rfl

/-- A list that is loaded holds, in order, what each word decodes to. -/
theorem decodeAll_eq_ok_iff {n : Nat} {ws : List Word} {is : List Instr} :
    decodeAll n ws = .ok is ↔ List.Forall₂ (fun w i => decode w = .ok i) ws is := by
  induction ws generalizing n is with
  | nil =>
    rw [decodeAll, List.forall₂_nil_left_iff]
    exact ⟨fun h => (Except.ok.inj h).symm, fun h => congrArg Except.ok h.symm⟩
  | cons w ws ih =>
    rw [List.forall₂_cons_left_iff]
    constructor
    · intro h
      by_cases hw : ∃ i, decode w = .ok i
      · obtain ⟨i, hi⟩ := hw
        rw [decodeAll_cons_of_ok hi] at h
        cases hd : decodeAll (n + 1) ws with
        | error e => rw [hd] at h; cases h
        | ok js =>
          rw [hd] at h
          exact ⟨i, js, hi, ih.mp hd, (Except.ok.inj h).symm⟩
      · rw [decodeAll_cons_of_fails fun i hi => hw ⟨i, hi⟩] at h
        cases h
    · rintro ⟨i, js, hi, hjs, rfl⟩
      rw [decodeAll_cons_of_ok hi, ih.mpr hjs]
      rfl

/-- A list that is refused is refused with its first word that does not decode, and that word's position. -/
theorem decodeAll_eq_error {n m : Nat} {ws : List Word} {w : Word} (h : decodeAll n ws = .error (w, m)) :
    ∃ k, m = n + k ∧ ws[k]? = some w ∧ (∀ i, decode w ≠ .ok i) ∧
      ∀ j < k, ∃ v i, ws[j]? = some v ∧ decode v = .ok i := by
  induction ws generalizing n with
  | nil => cases h
  | cons v ws ih =>
    by_cases hv : ∃ i, decode v = .ok i
    · obtain ⟨i, hi⟩ := hv
      rw [decodeAll_cons_of_ok hi] at h
      cases hd : decodeAll (n + 1) ws with
      | ok js => rw [hd] at h; cases h
      | error e =>
        rw [hd] at h
        obtain ⟨k, hm, hk, hw, hbefore⟩ := ih (hd.trans h)
        refine ⟨k + 1, by omega, hk, hw, fun j hj => ?_⟩
        cases j with
        | zero => exact ⟨v, i, rfl, hi⟩
        | succ j => exact hbefore j (by omega)
    · have hfails : ∀ i, decode v ≠ .ok i := fun i hi => hv ⟨i, hi⟩
      rw [decodeAll_cons_of_fails hfails] at h
      cases h
      exact ⟨0, rfl, rfl, hfails, fun j hj => absurd hj (Nat.not_lt_zero j)⟩

/-! ### Loading (R192, R222) -/

/-- With nothing loaded a program within the bound is installed. -/
theorem installProgram_of_unloaded {is : List Instr} {s : State} (hl : s.loaded = false) (hn : is.length < 2 ^ 31) :
    installProgram is s = .next { s with insts := is, loaded := true } := by
  rw [installProgram, hl, if_neg Bool.false_ne_true, if_neg (Nat.not_le.mpr hn)]

theorem hostLoad_of_ok {ws : List Word} {is : List Instr} {s : State} (hs : s.status = .idle)
    (hd : decodeAll 0 ws = .ok is) : hostLoad ws s = installProgram is s := by
  rw [hostLoad, hs, hd]

theorem hostLoadImage_of_ok {text : Text} {is : List Instr} {s : State} (hs : s.status = .idle)
    (hd : decodeImage text = .ok is) : hostLoadImage text s = installProgram is s := by
  rw [hostLoadImage, hs, hd]

theorem hostLoadImage_of_error {text : Text} {e : SourceError} {s : State} (hs : s.status = .idle)
    (hd : decodeImage text = .error e) : hostLoadImage text s = .refused (.imageRefused e) := by
  rw [hostLoadImage, hs, hd]

/-- A load that answers a next state has found the machine idle with nothing loaded. -/
theorem idle_of_load {m : HostMove} {s t : State} (hm : (∃ ws, m = .load ws) ∨ ∃ text, m = .loadImage text)
    (h : hostMove m s = .next t) : s.status = .idle ∧ s.loaded = false := by
  rcases hostMove_cases h with ⟨hs, hl, -⟩ | ⟨-, _, _, rfl, -⟩ | ⟨-, -, rfl, -⟩ | ⟨rfl, -⟩
  · exact ⟨hs, hl⟩
  all_goals simp at hm

/-- Settles O54: the load installs what `decodeAll` answers (`decodeAll_eq_ok_iff`) or is refused with what it refuses
(`decodeAll_eq_error`). -/
theorem loadAllOrNothing : Obligations.LoadAllOrNothing := by
  unfold Obligations.LoadAllOrNothing
  refine ⟨fun ws s hs hl hn => ?_, fun ws s t h => idle_of_load (.inl ⟨ws, rfl⟩) h⟩
  cases hd : decodeAll 0 ws with
  | ok is =>
    left
    have hall := decodeAll_eq_ok_iff.mp hd
    refine ⟨is, ?_, hall.length_eq.symm, fun k w hk => ?_⟩
    · exact (hostLoad_of_ok hs hd).trans (installProgram_of_unloaded hl (hall.length_eq ▸ hn))
    · obtain ⟨hlt, rfl⟩ := List.getElem?_eq_some_iff.mp hk
      have hlt' : k < is.length := hall.length_eq ▸ hlt
      exact ⟨is[k], List.getElem?_eq_getElem hlt', hall.get hlt hlt'⟩
  | error e =>
    right
    obtain ⟨w, m⟩ := e
    obtain ⟨k, hm, hk, hw, hbefore⟩ := decodeAll_eq_error hd
    refine ⟨k, w, ?_, hk, hw, hbefore⟩
    rw [hostMove, hostLoad, hs, hd, hm, Nat.zero_add]

/-! ### The lines of an image (R109, R110) -/

theorem toNat_of_isSpaceChar {c : Char} (h : isSpaceChar c = true) : c.toNat ≤ 32 := by
  simp only [isSpaceChar, isBlankChar, Bool.or_eq_true, beq_iff_eq] at h
  obtain ((((rfl | rfl) | rfl) | rfl) | h) | h := h
  case inr | inl.inr => omega
  all_goals decide

theorem toNat_of_isAlnumChar {c : Char} (h : isAlnumChar c = true) : 48 ≤ c.toNat := by
  simp only [isAlnumChar, isDigitChar, Bool.or_eq_true, decide_eq_true_eq] at h
  omega

theorem isSpaceChar_of_isAlnumChar {c : Char} (h : isAlnumChar c = true) : isSpaceChar c = false := by
  by_contra hs
  have hlow := toNat_of_isSpaceChar (Bool.not_eq_false _ ▸ hs)
  have hhigh := toNat_of_isAlnumChar h
  omega

/-- A run of characters of a class before a character outside it, taken and dropped. -/
theorem takeWhile_append_cons {p : Char → Bool} {u : Text} {c : Char} (hu : ∀ x ∈ u, p x = true) (hc : p c = false)
    (t : Text) : (u ++ c :: t).takeWhile p = u ∧ (u ++ c :: t).dropWhile p = c :: t := by
  rw [List.takeWhile_append_of_pos hu, List.dropWhile_append_of_pos hu, List.takeWhile_cons_of_neg (by simp [hc]),
    List.dropWhile_cons_of_neg (by simp [hc]), List.append_nil]
  exact ⟨rfl, rfl⟩

/-- A line of the form of R110's pattern: white space, a name, a space, a colon, white space, eight letters or digits, a
semicolon and any rest. -/
theorem imageLineWord_of_form {a u d h : Text} (v : Text) (ha : ∀ c ∈ a, isSpaceChar c = true)
    (hu : ∀ c ∈ u, isAlnumChar c = true) (hu' : u ≠ [])
    (hd : ∀ c ∈ d, isSpaceChar c = true) (hh : ∀ c ∈ h, isAlnumChar c = true) (hlen : h.length = 8) :
    imageLineWord (a ++ (u ++ ' ' :: ':' :: (d ++ (h ++ ';' :: v)))) = some h := by
  have hstart : trimStart (a ++ (u ++ ' ' :: ':' :: (d ++ (h ++ ';' :: v)))) = u ++ ' ' :: ':' :: (d ++ (h ++ ';' :: v)) := by
    obtain ⟨c, u, rfl⟩ := List.exists_cons_of_ne_nil hu'
    rw [trimStart_append ha]
    exact trimStart_cons (isSpaceChar_of_isAlnumChar (hu c List.mem_cons_self)) _
  have hword : trimStart (d ++ (h ++ ';' :: v)) = h ++ ';' :: v := by
    obtain ⟨c, h, rfl⟩ := List.exists_cons_of_length_eq_add_one hlen
    rw [trimStart_append hd]
    exact trimStart_cons (isSpaceChar_of_isAlnumChar (hh c List.mem_cons_self)) _
  obtain ⟨htake, hdrop⟩ := takeWhile_append_cons hu (c := ' ') (by decide) (':' :: (d ++ (h ++ ';' :: v)))
  have hcolon (t : Text) : trimStart (' ' :: ':' :: t) = ':' :: t := rfl
  rw [imageLineWord, hstart, htake, hdrop, hcolon, List.isEmpty_eq_false_iff.mpr hu']
  simp only [hword, Bool.false_eq_true, if_false]
  rw [← hlen, List.drop_left, List.take_left, List.all_eq_true.mpr hh]
  rfl

/-! ### The lines the assembler writes -/

theorem upperHex_ne_nil (n : Nat) : upperHex n ≠ [] := digitsOf_ne_nil n n

theorem mem_upperHex {n : Nat} : ∀ c ∈ upperHex n, isAlnumChar c = true :=
  forall_mem_digitsOf (by decide) isAlnumChar_upperDigits (n + 1) n

theorem mem_hexWord {w : Word} : ∀ c ∈ hexWord w, isAlnumChar c = true :=
  forall_mem_hexWord isAlnumChar_lowerDigits w

/-- The line of an instruction in the form of the pattern. -/
theorem imageLine_eq (i : Nat) (w : Word) :
    imageLine i w = List.replicate (2 - (upperHex i).length) ' ' ++ (upperHex i ++ ' ' :: ':' :: (List.replicate 5 ' ' ++
      (hexWord w ++ ';' :: (" % (".toList ++ padLeft '0' 2 (upperHex (4 * i)) ++ ") %".toList)))) := by
  simp [imageLine, padLeft]

@[simp] theorem imageLineWord_imageLine (i : Nat) (w : Word) : imageLineWord (imageLine i w) = some (hexWord w) := by
  rw [imageLine_eq]
  have hspaces (n : Nat) : ∀ c ∈ List.replicate n ' ', isSpaceChar c = true :=
    fun c hc => List.eq_of_mem_replicate hc ▸ by decide
  exact imageLineWord_of_form _ (hspaces _) mem_upperHex (upperHex_ne_nil i) (hspaces _) mem_hexWord (length_hexWord w)

theorem newline_notMem_imageLine (i : Nat) (w : Word) : '\n' ∉ imageLine i w := by
  have hhex (n : Nat) : '\n' ∉ upperHex n := fun h => absurd (mem_upperHex _ h) (by decide)
  have hword : '\n' ∉ hexWord w := fun h => absurd (mem_hexWord _ h) (by decide)
  simp [imageLine, padLeft, hhex, hword]

theorem imageLine_ne_nil (i : Nat) (w : Word) : imageLine i w ≠ [] := by
  simp [imageLine]

/-! ### The lines the loader reads -/

theorem imageInstrs_cons_of_ok {w : Word} {x : Instr} (h : decode w = .ok x) (i line : Nat) (ts : List Text) :
    imageInstrs line (imageLine i w :: ts) = (imageInstrs (line + 1) ts).map (x :: ·) := by
  rw [imageInstrs, List.isEmpty_eq_false_iff.mpr (imageLine_ne_nil i w), imageLineWord_imageLine]
  simp only [parseHexWord_hexWord, h, Bool.false_eq_true, if_false]
  cases imageInstrs (line + 1) ts <;> rfl

theorem imageInstrs_cons_of_fails {w : Word} (h : ∀ i, decode w ≠ .ok i) (i line : Nat) (ts : List Text) :
    imageInstrs line (imageLine i w :: ts) = .error (.invalidInstruction (hexWord w) line) := by
  rw [imageInstrs, List.isEmpty_eq_false_iff.mpr (imageLine_ne_nil i w), imageLineWord_imageLine]
  simp only [parseHexWord_hexWord, Bool.false_eq_true, if_false]
  cases hd : decode w with
  | ok x => exact absurd hd (h x)
  | error e => rfl

theorem imageInstrs_cons_of_noMatch {t : Text} (ht : t ≠ []) (h : imageLineWord t = none) (line : Nat) (ts : List Text) :
    imageInstrs line (t :: ts) = .error (syntaxError .invalidFormat t line) := by
  rw [imageInstrs, List.isEmpty_eq_false_iff.mpr ht, h]
  rfl

/-- The loader on the image of words that decode, followed by any text: their instructions, then what it reads of the rest. -/
theorem imageInstrs_imageFrom {ws : List Word} {is : List Instr} (h : List.Forall₂ (fun w i => decode w = .ok i) ws is)
    (i line : Nat) (rest : Text) :
    imageInstrs line (splitAt '\n' (imageFrom i ws ++ rest)) =
      (imageInstrs (line + ws.length) (splitAt '\n' rest)).map (is ++ ·) := by
  induction h generalizing i line with
  | nil => exact (congrFun Except.map_id _).symm
  | @cons w x ws is hw _ ih =>
    rw [imageFrom, List.append_assoc, List.append_assoc, List.singleton_append,
      splitAt_append_sep (newline_notMem_imageLine i w), imageInstrs_cons_of_ok hw, ih, List.length_cons,
      Nat.add_right_comm, ← Nat.add_assoc]
    cases imageInstrs (line + ws.length + 1) (splitAt '\n' rest) <;> rfl

/-- The loader refuses an image after words that decode as it refuses the rest, with the rest's line. -/
theorem decodeImage_image_append {ws : List Word} {is : List Instr} (h : decodeAll 0 ws = .ok is) (rest : Text) :
    decodeImage (image ws ++ rest) = (imageInstrs (ws.length + 1) (splitAt '\n' rest)).map (is ++ ·) := by
  rw [decodeImage, image, imageInstrs_imageFrom (decodeAll_eq_ok_iff.mp h), Nat.add_comm]

/-- The loader reads back the image of words that decode. -/
theorem decodeImage_image {ws : List Word} {is : List Instr} (h : decodeAll 0 ws = .ok is) :
    decodeImage (image ws) = .ok is := by
  have himage := decodeImage_image_append h []
  rw [List.append_nil] at himage
  rw [himage]
  exact congrArg Except.ok (List.append_nil is)

/-- Settles O56, by induction on the words (`imageInstrs_imageFrom`): each line is of the pattern's form and holds its word. -/
theorem imageReadBack : Obligations.ImageReadBack := fun _ _ => decodeImage_image

/-- Settles O58: the load installs what the loader reads or is refused with what the loader refuses; after the image of words that
decode the loader answers what it answers of the rest (`decodeImage_image_append`). -/
theorem hostLoadImage_allOrNothing : Obligations.HostLoadImage := by
  unfold Obligations.HostLoadImage
  refine ⟨fun text is s hs hl hn hd => ?_, fun ws is s hs hl hn hd => ?_, fun text e s hs hd => hostLoadImage_of_error hs hd,
    fun ws is w rest hd hw => ?_, fun ws is line rest hd hne hnl hword => ?_,
    fun text s t h => idle_of_load (.inr ⟨text, rfl⟩) h⟩
  · exact (hostLoadImage_of_ok hs hd).trans (installProgram_of_unloaded hl hn)
  · exact (hostLoadImage_of_ok hs (decodeImage_image hd)).trans (installProgram_of_unloaded hl hn)
  · rw [List.append_assoc, decodeImage_image_append hd, splitAt_append_sep (newline_notMem_imageLine _ w),
      imageInstrs_cons_of_fails hw]
    rfl
  · refine ⟨Config.syntaxColumn line (ws.length + 1), ?_⟩
    rw [List.append_assoc, decodeImage_image_append hd, splitAt_append_sep hnl, imageInstrs_cons_of_noMatch hne hword]
    rfl

end Sys2Proof.Machine
end


section
/-! The assembler on the disassembler's text: the proof of the statement of spec/30_encoding.md R92 and R108. The layers come first:
the numerals and operands that the disassembler writes and the assembler reads (R99 to R104), a line taken apart into its tokens and
operands (R95, R96), and the listing of a whole text. -/

namespace Sys2Proof.Machine

/-! ### Decimal numerals (R101, R102) -/

theorem decimal_ne_nil (n : Nat) : decimal n ≠ [] := digitsOf_ne_nil n n

theorem mem_decimal {n : Nat} : ∀ c ∈ decimal n, isDigitChar c = true :=
  forall_mem_digitsOf (by decide) isDigitChar_lowerDigits (n + 1) n

theorem minus_notMem_decimal (n : Nat) : '-' ∉ decimal n := fun h => absurd (mem_decimal _ h) (by decide)

theorem numeral_decimal (n : Nat) : numeral 10 (decimal n) = some n := by
  rw [numeral, if_neg (decimal_ne_nil n)]
  exact numeralFrom_digitsOf (by decide) (by decide) (Nat.lt_succ_self n)

/-- A literal that does not begin with 0 is decimal. -/
theorem parseUnsigned_of_ne_zero {c : Char} (h : c ≠ '0') (t : Text) : parseUnsigned (c :: t) = numeral 10 (c :: t) := by
  unfold parseUnsigned
  split
  · next e => exact absurd (List.cons.inj e).1 h
  · next e => exact absurd (List.cons.inj e).1 h
  · rfl

theorem lowerDigits_ne_zero : ∀ d < 10, 0 < d → lowerDigits.getD d '0' ≠ '0' := by decide

theorem parseUnsigned_decimal (n : Nat) : parseUnsigned (decimal n) = some n := by
  obtain rfl | hpos := Nat.eq_zero_or_pos n
  · rfl
  · obtain ⟨d, t, hd, hd', ht⟩ := digitsOf_leading (digits := lowerDigits) (base := 10) (by decide) hpos (Nat.lt_succ_self n)
    have hdecimal : decimal n = lowerDigits.getD d '0' :: t := ht
    rw [hdecimal, parseUnsigned_of_ne_zero (lowerDigits_ne_zero d hd' hd), ← hdecimal, numeral_decimal]

theorem parseLiteral_of_notMem {t : Text} (h : '-' ∉ t) : parseLiteral t = (parseUnsigned t).map fun n => (n : Int) := by
  unfold parseLiteral
  split
  · exact absurd List.mem_cons_self h
  · rfl

theorem isIntegerForm_of_notMem {t : Text} (h : '-' ∉ t) : isIntegerForm t = (!t.isEmpty && t.all isDigitChar) := by
  unfold isIntegerForm
  split
  · exact absurd List.mem_cons_self h
  · rfl

/-- The decimal numeral of an integer is read as that integer. -/
theorem parseLiteral_signedDecimal (v : Int) : parseLiteral (signedDecimal v) = some v := by
  unfold signedDecimal
  split
  · rw [parseLiteral, parseUnsigned_decimal]
    exact congrArg some (show -(v.natAbs : Int) = v by omega)
  · rw [parseLiteral_of_notMem (minus_notMem_decimal _), parseUnsigned_decimal]
    exact congrArg some (show (v.natAbs : Int) = v by omega)

theorem isIntegerForm_signedDecimal (v : Int) : isIntegerForm (signedDecimal v) = true := by
  have hdigits : (!(decimal v.natAbs).isEmpty && (decimal v.natAbs).all isDigitChar) = true := by
    rw [List.isEmpty_eq_false_iff.mpr (decimal_ne_nil _), List.all_eq_true.mpr mem_decimal]
    rfl
  unfold signedDecimal
  split
  · exact hdigits
  · rwa [isIntegerForm_of_notMem (minus_notMem_decimal _)]

theorem signedDecimal_natCast (n : Nat) : signedDecimal (n : Int) = decimal n := if_neg (by omega)

theorem signedDecimal_ne_nil (v : Int) : signedDecimal v ≠ [] := by
  unfold signedDecimal
  split
  · exact List.cons_ne_nil _ _
  · exact decimal_ne_nil _

section Fitting

variable {v : Int} {n : Nat} (h : v.natAbs < 2 ^ n)
include h

theorem parseFitting_signedDecimal : parseFitting n (signedDecimal v) = .ok v := by
  rw [parseFitting, parseLiteral_signedDecimal]
  exact if_pos (decide_eq_true h)

theorem parseTarget_signedDecimal : parseTarget n (signedDecimal v) = .ok (v, none) := by
  rw [parseTarget, if_pos (isIntegerForm_signedDecimal v), parseFitting_signedDecimal h]

end Fitting

/-! ### The numbers of a slot (R108): as the disassembler writes them they fit their field -/

theorem natAbs_of_immInRange {v : Word} (h : immInRange v = true) : v.toInt.natAbs < 2 ^ 16 := by
  rw [immInRange, decide_eq_true_eq] at h
  omega

theorem natAbs_of_addrInRange {v : Word} (h : addrInRange v = true) : v.toInt.natAbs < 2 ^ 26 := by
  rw [addrInRange, decide_eq_true_eq] at h
  omega

theorem natAbs_zext16 (v : Word) : ((zext16 v).toNat : Int).natAbs < 2 ^ 16 := by
  simp only [zext16, BitVec.toNat_setWidth, BitVec.extractLsb'_toNat]
  omega

theorem parseFitting_renderSigned16 (imm : Word) : parseFitting 16 (renderSigned16 imm) = .ok (sext16 imm).toInt :=
  parseFitting_signedDecimal (natAbs_of_immInRange (immInRange_sext16 imm))

theorem parseFitting_renderUnsigned16 (imm : Word) :
    parseFitting 16 (renderUnsigned16 imm) = .ok ((zext16 imm).toNat : Int) := by
  rw [renderUnsigned16, ← signedDecimal_natCast]
  exact parseFitting_signedDecimal (natAbs_zext16 imm)

/-! ### Operands (R99, R100, R103, R104, R108) -/

theorem parseRegister_renderRegister (r : RegIdx) : parseRegister (renderRegister r) = .ok r := by
  rw [renderRegister, parseRegister, numeral_decimal]
  exact (if_pos r.isLt).trans (by simp)

theorem parseThreeRegs_render (mk : RegIdx → RegIdx → RegIdx → Instr) (rd rs rt : RegIdx) :
    parseThreeRegs mk [renderRegister rd, renderRegister rs, renderRegister rt] = .ok (mk rd rs rt, none) := by
  simp only [parseThreeRegs, parseRegister_renderRegister]
  rfl

theorem parseShift_render (mk : RegIdx → RegIdx → ShAmt → Instr) (rd rt : RegIdx) (sa : ShAmt) :
    parseShift mk [renderRegister rd, renderRegister rt, decimal sa.toNat] = .ok (mk rd rt sa, none) := by
  have hsa : BitVec.ofInt 5 (sa.toNat : Int) = sa := by simp
  rw [← signedDecimal_natCast]
  simp only [parseShift, parseRegister_renderRegister, parseFitting_signedDecimal (v := sa.toNat) sa.isLt]
  exact congrArg (fun a => Except.ok (mk rd rt a, none)) hsa

/-- The base operand, taken apart at its parenthesis. -/
theorem splitBased_of_form {m d : Text} (hm : m ≠ []) (hd : d ≠ []) (hdigits : ∀ c ∈ d, isDigitChar c = true) :
    splitBased (m ++ ['('] ++ '$' :: d ++ [')']) = some (m, d) := by
  have hreverse : (m ++ ['('] ++ '$' :: d ++ [')']).reverse = ')' :: (d.reverse ++ '$' :: '(' :: m.reverse) := by simp
  obtain ⟨htake, hdrop⟩ := takeWhile_append_cons (u := d.reverse) (c := '$')
    (fun c hc => hdigits c (List.mem_reverse.mp hc)) (by decide) ('(' :: m.reverse)
  rw [splitBased, hreverse]
  simp [htake, hdrop, hm, hd]

section Immediate

variable (mk : RegIdx → RegIdx → Word → Instr) (r r' : RegIdx) (imm : Word)

theorem parseImmediate_renderSigned16 :
    parseImmediate mk [renderRegister r, renderRegister r', renderSigned16 imm] = .ok (mk r r' (sext16 imm), none) := by
  simp only [parseImmediate, parseRegister_renderRegister, parseFitting_renderSigned16]
  exact congrArg (fun v => Except.ok (mk r r' v, none)) BitVec.ofInt_toInt

theorem parseImmediate_renderUnsigned16 :
    parseImmediate mk [renderRegister r, renderRegister r', renderUnsigned16 imm] = .ok (mk r r' (zext16 imm), none) := by
  have himm : BitVec.ofInt 32 ((zext16 imm).toNat : Int) = zext16 imm := by simp
  simp only [parseImmediate, parseRegister_renderRegister, parseFitting_renderUnsigned16]
  exact congrArg (fun v => Except.ok (mk r r' v, none)) himm

theorem parseBased_renderSigned16 :
    parseBased mk [renderRegister r, renderSigned16 imm ++ ['('] ++ renderRegister r' ++ [')']] =
      .ok (mk r r' (sext16 imm), none) := by
  have hsplit : splitBased (renderSigned16 imm ++ ['('] ++ renderRegister r' ++ [')']) =
      some (renderSigned16 imm, decimal r'.toNat) :=
    splitBased_of_form (signedDecimal_ne_nil _) (decimal_ne_nil _) mem_decimal
  have hbase : parseRegister ('$' :: decimal r'.toNat) = .ok r' := parseRegister_renderRegister r'
  simp only [parseBased, parseRegister_renderRegister, hsplit, parseFitting_renderSigned16, hbase]
  exact congrArg (fun v => Except.ok (mk r r' v, none)) BitVec.ofInt_toInt

theorem parseBranch_renderStored (h : immInRange imm = true) :
    parseBranch mk [renderRegister r, renderRegister r', renderStored imm] = .ok (mk r r' imm, none) := by
  simp only [parseBranch, parseRegister_renderRegister, renderStored, parseTarget_signedDecimal (natAbs_of_immInRange h)]
  exact congrArg (fun v => Except.ok (mk r r' v, none)) BitVec.ofInt_toInt

end Immediate

theorem parseJump_renderStored (mk : Word → Instr) {addr : Word} (h : addrInRange addr = true) :
    parseJump mk [renderStored addr] = .ok (mk addr, none) := by
  simp only [parseJump, renderStored, parseTarget_signedDecimal (natAbs_of_addrInRange h)]
  exact congrArg (fun v => Except.ok (mk v, none)) BitVec.ofInt_toInt

theorem parseOperands_jr_render (rs : RegIdx) : parseOperands .jr [renderRegister rs] = .ok (.jr rs, none) := by
  simp only [parseOperands, parseRegister_renderRegister]
  rfl

theorem parseOperands_lui_render (rt : RegIdx) {imm : Word} (h : immInRange imm = true) :
    parseOperands .lui [renderRegister rt, renderStored imm] = .ok (.lui rt imm, none) := by
  simp only [parseOperands, parseRegister_renderRegister, renderStored, parseFitting_signedDecimal (natAbs_of_immInRange h)]
  exact congrArg (fun v => Except.ok (Instr.lui rt v, none)) BitVec.ofInt_toInt

/-! ### Words read back from rendered slots (R89, R108) -/

/-- The reduction of the slots changes only bits that the encoder drops. -/
theorem encode_canonical (i : Instr) : encode i.canonical = encode i := by
  cases i with
  | add _ _ _ | sub _ _ _ | and _ _ _ | or _ _ _ | xor _ _ _ | sll _ _ _ | srl _ _ _ | sra _ _ _ | jr _ | jrFallback _ => rfl
  | addi _ _ _ | andi _ _ _ | ori _ _ _ | xori _ _ _ | lw _ _ _ | sw _ _ _ | beq _ _ _ | bne _ _ _ | lui _ _ =>
    simp only [encode, encodeSlots, Instr.canonical, Instr.kind, Instr.slots, Kind.format, sext16_and_low]
  | j _ | jal _ => simp only [encode, encodeSlots, Instr.canonical, Instr.kind, Instr.slots, Kind.format, sext26_and_low]

theorem encode_eq_of_canonical_eq {i j : Instr} (h : i.canonical = j.canonical) : encode i = encode j := by
  rw [← encode_canonical i, h, encode_canonical]

theorem sext16_sext16 (v : Word) : sext16 (sext16 v) = sext16 v := sext16_of_inRange (immInRange_sext16 v)

theorem sext16_zext16 (v : Word) : sext16 (zext16 v) = sext16 v := by
  unfold sext16 zext16
  congr 1
  apply BitVec.eq_of_toNat_eq
  simp

/-- The assembler reads from the operands of a well-formed instruction one that reads back from its word alike, with no label. -/
theorem parseOperands_renderOperands {i : Instr} (h : i.wf = true) :
    ∃ x, parseOperands i.kind (renderOperands i) = .ok (x, none) ∧ x.canonical = i.canonical := by
  cases i with
  | add rd rs rt => exact ⟨_, parseThreeRegs_render .add rd rs rt, rfl⟩
  | sub rd rs rt => exact ⟨_, parseThreeRegs_render .sub rd rs rt, rfl⟩
  | and rd rs rt => exact ⟨_, parseThreeRegs_render .and rd rs rt, rfl⟩
  | or rd rs rt => exact ⟨_, parseThreeRegs_render .or rd rs rt, rfl⟩
  | xor rd rs rt => exact ⟨_, parseThreeRegs_render .xor rd rs rt, rfl⟩
  | sll rd rt sa => exact ⟨_, parseShift_render .sll rd rt sa, rfl⟩
  | srl rd rt sa => exact ⟨_, parseShift_render .srl rd rt sa, rfl⟩
  | sra rd rt sa => exact ⟨_, parseShift_render .sra rd rt sa, rfl⟩
  | jr rs | jrFallback rs => exact ⟨_, parseOperands_jr_render rs, rfl⟩
  | addi rt rs imm =>
    exact ⟨_, parseImmediate_renderSigned16 .addi rt rs imm, congrArg (Instr.addi rt rs) (sext16_sext16 imm)⟩
  | andi rt rs imm =>
    exact ⟨_, parseImmediate_renderUnsigned16 .andi rt rs imm, congrArg (Instr.andi rt rs) (sext16_zext16 imm)⟩
  | ori rt rs imm =>
    exact ⟨_, parseImmediate_renderUnsigned16 .ori rt rs imm, congrArg (Instr.ori rt rs) (sext16_zext16 imm)⟩
  | xori rt rs imm =>
    exact ⟨_, parseImmediate_renderUnsigned16 .xori rt rs imm, congrArg (Instr.xori rt rs) (sext16_zext16 imm)⟩
  | lw rt rs imm =>
    exact ⟨_, parseBased_renderSigned16 .lw rt rs imm, congrArg (Instr.lw rt rs) (sext16_sext16 imm)⟩
  | sw rt rs imm =>
    exact ⟨_, parseBased_renderSigned16 .sw rt rs imm, congrArg (Instr.sw rt rs) (sext16_sext16 imm)⟩
  | beq rs rt imm => exact ⟨_, parseBranch_renderStored .beq rs rt imm h, rfl⟩
  | bne rs rt imm => exact ⟨_, parseBranch_renderStored .bne rs rt imm h, rfl⟩
  | lui rt imm => exact ⟨_, parseOperands_lui_render rt h, rfl⟩
  | j addr => exact ⟨_, parseJump_renderStored .j h, rfl⟩
  | jal addr => exact ⟨_, parseJump_renderStored .jal h, rfl⟩

/-! ### The characters of an operand -/

/-- A character that parts neither lines, tokens nor operands, and begins no comment. -/
def isOperandChar (c : Char) : Bool := !isSpaceChar c && (c != ',' && c != ';')

/-- A text that the assembler takes as one operand as it stands. -/
structure IsOperand (t : Text) : Prop where
  ne_nil : t ≠ []
  chars : ∀ c ∈ t, isOperandChar c = true

theorem isSpaceChar_of_isOperandChar {c : Char} (h : isOperandChar c = true) : isSpaceChar c = false := by
  rw [isOperandChar, Bool.and_eq_true, Bool.not_eq_true'] at h
  exact h.1

theorem isOperandChar_of_isDigitChar {c : Char} (h : isDigitChar c = true) : isOperandChar c = true := by
  have hspace : isSpaceChar c = false := isSpaceChar_of_isAlnumChar (by simp [isAlnumChar, h])
  have hcomma : c ≠ ',' := by rintro rfl; exact absurd h (by decide)
  have hsemicolon : c ≠ ';' := by rintro rfl; exact absurd h (by decide)
  simp [isOperandChar, hspace, hcomma, hsemicolon]

namespace IsOperand

theorem append {s t : Text} (hs : IsOperand s) (ht : IsOperand t) : IsOperand (s ++ t) where
  ne_nil := List.append_ne_nil_of_left_ne_nil hs.ne_nil t
  chars := List.forall_mem_append.mpr ⟨hs.chars, ht.chars⟩

theorem singleton {c : Char} (h : isOperandChar c = true) : IsOperand [c] where
  ne_nil := List.cons_ne_nil _ _
  chars := List.forall_mem_singleton.mpr h

theorem cons {c : Char} (h : isOperandChar c = true) {t : Text} (ht : IsOperand t) : IsOperand (c :: t) :=
  (singleton h).append ht

theorem decimal (n : Nat) : IsOperand (decimal n) where
  ne_nil := decimal_ne_nil n
  chars := fun c hc => isOperandChar_of_isDigitChar (mem_decimal c hc)

theorem signedDecimal (v : Int) : IsOperand (signedDecimal v) := by
  unfold Machine.signedDecimal
  split
  · exact cons (by decide) (decimal _)
  · exact decimal _

theorem renderRegister (r : RegIdx) : IsOperand (renderRegister r) := cons (by decide) (decimal _)

theorem renderSigned16 (imm : Word) : IsOperand (renderSigned16 imm) := signedDecimal _

theorem based (imm : Word) (r : RegIdx) :
    IsOperand (Machine.renderSigned16 imm ++ ['('] ++ Machine.renderRegister r ++ [')']) :=
  (((renderSigned16 imm).append (singleton (by decide))).append (renderRegister r)).append (singleton (by decide))

end IsOperand

/-- Every operand the disassembler writes is one: a register, a number or a based address. -/
theorem isOperand_of_mem_renderOperands (i : Instr) : ∀ t ∈ renderOperands i, IsOperand t := by
  cases i with
  | add _ _ _ | sub _ _ _ | and _ _ _ | or _ _ _ | xor _ _ _ | jr _ | jrFallback _ =>
    simp [renderOperands, IsOperand.renderRegister]
  | sll _ _ _ | srl _ _ _ | sra _ _ _ => simp [renderOperands, IsOperand.renderRegister, IsOperand.decimal]
  | addi _ _ _ => simp [renderOperands, IsOperand.renderRegister, IsOperand.renderSigned16]
  | andi _ _ _ | ori _ _ _ | xori _ _ _ =>
    simp [renderOperands, renderUnsigned16, IsOperand.renderRegister, IsOperand.decimal]
  | lw rt rs imm | sw rt rs imm =>
    exact List.forall_mem_cons.mpr ⟨.renderRegister rt, List.forall_mem_singleton.mpr (.based imm rs)⟩
  | beq _ _ _ | bne _ _ _ | lui _ _ =>
    simp [renderOperands, renderStored, IsOperand.renderRegister, IsOperand.signedDecimal]
  | j _ | jal _ => simp [renderOperands, renderStored, IsOperand.signedDecimal]

theorem renderOperands_ne_nil (i : Instr) : renderOperands i ≠ [] := by
  cases i <;> exact List.cons_ne_nil _ _

theorem isOperand_kindName (k : Kind) : IsOperand (kindName k) := by
  cases k <;> exact ⟨by decide, List.all_eq_true.mp (by decide)⟩

theorem kindOfName_kindName (k : Kind) : kindOfName (kindName k) = some k := by
  cases k <;> decide

/-! ### Operands joined and taken apart (R96, R108) -/

theorem trimEnd_append {t : Text} (ht : trimEnd t ≠ []) (s : Text) : trimEnd (s ++ t) = s ++ trimEnd t := by
  have hdrop : (t.reverse.dropWhile isSpaceChar).isEmpty = false := by
    rw [List.isEmpty_eq_false_iff]
    exact fun e => ht (by rw [trimEnd, e, List.reverse_nil])
  rw [trimEnd, List.reverse_append, List.dropWhile_append, hdrop]
  simp [trimEnd]

theorem splitAt_ne_nil (sep : Char) (t : Text) : splitAt sep t ≠ [] := by
  cases t with
  | nil => exact List.cons_ne_nil _ _
  | cons c cs =>
    rw [splitAt]
    split
    · exact List.cons_ne_nil _ _
    · split <;> exact List.cons_ne_nil _ _

/-- White space at the start of operands is dropped. -/
theorem lineOperands_space (t : Text) : lineOperands (' ' :: t) = lineOperands t := by
  obtain ⟨u, us, hu⟩ := List.exists_cons_of_ne_nil (splitAt_ne_nil ',' t)
  rw [lineOperands, lineOperands, splitAt, if_neg (by decide), hu]
  rfl

namespace IsOperand

variable {t : Text} (h : IsOperand t)
include h

theorem exists_cons : ∃ c u, t = c :: u ∧ isSpaceChar c = false := by
  obtain ⟨c, u, rfl⟩ := List.exists_cons_of_ne_nil h.ne_nil
  exact ⟨c, u, rfl, isSpaceChar_of_isOperandChar (h.chars c List.mem_cons_self)⟩

theorem notMem {c : Char} (hc : isOperandChar c = false) : c ∉ t := fun hmem => by
  rw [h.chars c hmem] at hc
  cases hc

theorem trimEnd_eq : trimEnd t = t := by
  obtain ⟨c, u, hcu⟩ := List.exists_cons_of_ne_nil (List.reverse_ne_nil_iff.mpr h.ne_nil)
  have hc : isSpaceChar c = false := isSpaceChar_of_isOperandChar
    (h.chars c (List.mem_reverse.mp (hcu ▸ List.mem_cons_self)))
  rw [trimEnd, hcu, List.dropWhile_cons_of_neg (by simp [hc]), ← hcu, List.reverse_reverse]

theorem trim_eq : trimEnd (trimStart t) = t := by
  obtain ⟨c, u, rfl, hc⟩ := h.exists_cons
  rw [trimStart_cons hc, h.trimEnd_eq]

theorem lineOperands_eq : lineOperands t = [t] := by
  rw [lineOperands, splitAt_of_notMem (h.notMem (by decide)), List.map_singleton, h.trim_eq]

theorem lineOperands_append (s : Text) : lineOperands (t ++ [',', ' '] ++ s) = t :: lineOperands s := by
  rw [← lineOperands_space s, List.append_assoc]
  change lineOperands (t ++ ',' :: ' ' :: s) = _
  rw [lineOperands, splitAt_append_sep (h.notMem (by decide)), List.map_cons, h.trim_eq, lineOperands]

end IsOperand

/-- The operands of a line as the disassembler joins them. -/
def joinOperands (ops : List Text) : Text := List.intercalate [',', ' '] ops

theorem joinOperands_singleton (a : Text) : joinOperands [a] = a := List.intercalate_singleton

theorem joinOperands_cons_cons (a b : Text) (ops : List Text) :
    joinOperands (a :: b :: ops) = a ++ [',', ' '] ++ joinOperands (b :: ops) := List.intercalate_cons_cons

/-- What the assembler needs to know of joined operands to read them back from a line. -/
structure IsOperandList (t : Text) (ops : List Text) : Prop where
  operands : lineOperands t = ops
  start : ∃ c u, t = c :: u ∧ isSpaceChar c = false
  trimEnd : trimEnd t = t
  comment : ';' ∉ t
  newline : '\n' ∉ t

theorem isOperandList_joinOperands {a : Text} {ops : List Text} (h : ∀ t ∈ a :: ops, IsOperand t) :
    IsOperandList (joinOperands (a :: ops)) (a :: ops) := by
  induction ops generalizing a with
  | nil =>
    have ha : IsOperand a := h a List.mem_cons_self
    rw [joinOperands_singleton]
    exact ⟨ha.lineOperands_eq, ha.exists_cons, ha.trimEnd_eq, ha.notMem (by decide), ha.notMem (by decide)⟩
  | cons b ops ih =>
    obtain ⟨ha, htail⟩ := List.forall_mem_cons.mp h
    have hjoin := ih htail
    obtain ⟨c, u, hc, hspace⟩ := ha.exists_cons
    rw [joinOperands_cons_cons]
    have hne : trimEnd (joinOperands (b :: ops)) ≠ [] := by
      obtain ⟨d, v, hd, -⟩ := hjoin.start
      rw [hjoin.trimEnd, hd]
      exact List.cons_ne_nil d v
    exact {
      operands := by rw [ha.lineOperands_append, hjoin.operands]
      start := ⟨c, u ++ [',', ' '] ++ joinOperands (b :: ops), by rw [hc]; rfl, hspace⟩
      trimEnd := by rw [trimEnd_append hne, hjoin.trimEnd]
      comment := by simp [ha.notMem (c := ';') (by decide), hjoin.comment]
      newline := by simp [ha.notMem (c := '\n') (by decide), hjoin.newline] }

/-- The operands of an instruction are read back from their line. -/
theorem isOperandList_renderOperands (i : Instr) : IsOperandList (joinOperands (renderOperands i)) (renderOperands i) := by
  have h := isOperand_of_mem_renderOperands i
  obtain ⟨a, ops, ho⟩ := List.exists_cons_of_ne_nil (renderOperands_ne_nil i)
  rw [ho] at h ⊢
  exact isOperandList_joinOperands h

/-! ### A line taken apart (R95, R96) -/

theorem isBlankChar_of_isSpaceChar {c : Char} (h : isSpaceChar c = false) : isBlankChar c = false := by
  simp only [isSpaceChar, Bool.or_eq_false_iff] at h
  exact h.1.1.1.1

/-- The tokens of a line without a label. -/
theorem lineTokens_of_form {m o : Text} {c : Char} (hm : IsOperand m) (hc : isSpaceChar c = false) :
    lineTokens ('\t' :: (m ++ '\t' :: c :: o)) = [[], m, c :: o] := by
  have hblank : ∀ x ∈ m, (!isBlankChar x) = true := fun x hx => by
    rw [isBlankChar_of_isSpaceChar (isSpaceChar_of_isOperandChar (hm.chars x hx))]
    rfl
  obtain ⟨htake, hdrop⟩ := takeWhile_append_cons hblank (c := '\t') (by decide) (c :: o)
  obtain ⟨d, v, hd, hd'⟩ := hm.exists_cons
  have hstart : ('\t' :: (m ++ '\t' :: c :: o)).dropWhile isBlankChar = m ++ '\t' :: c :: o := by
    rw [List.dropWhile_cons_of_pos (by decide), hd]
    exact List.dropWhile_cons_of_neg (by simp [isBlankChar_of_isSpaceChar hd'])
  have hrest : ('\t' :: c :: o).dropWhile isBlankChar = c :: o := by
    rw [List.dropWhile_cons_of_pos (by decide),
      List.dropWhile_cons_of_neg (by simp [isBlankChar_of_isSpaceChar hc])]
  have hfirst : (!isBlankChar '\t') = false := by decide
  rw [lineTokens, List.takeWhile_cons_of_neg (by simp [hfirst]), List.dropWhile_cons_of_neg (by simp [hfirst])]
  simp only [hstart, htake, hdrop, hrest]

theorem renderInstr_eq (i : Instr) :
    renderInstr i = '\t' :: (kindName i.kind ++ '\t' :: joinOperands (renderOperands i)) := by
  simp [renderInstr, joinOperands]

theorem newline_notMem_renderInstr (i : Instr) : '\n' ∉ renderInstr i := by
  rw [renderInstr_eq]
  simp [(isOperand_kindName i.kind).notMem (c := '\n') (by decide), (isOperandList_renderOperands i).newline]

/-- A rendered line holds no comment and ends without white space. -/
theorem lineBody_renderInstr (i : Instr) : lineBody (renderInstr i) = renderInstr i := by
  have hops := isOperandList_renderOperands i
  obtain ⟨c, u, hc, -⟩ := hops.start
  have hcomment : ';' ∉ renderInstr i := by
    rw [renderInstr_eq]
    simp [(isOperand_kindName i.kind).notMem (c := ';') (by decide), hops.comment]
  have htake : (renderInstr i).takeWhile (fun c => c != ';') = renderInstr i :=
    List.takeWhile_eq_self_iff.mpr fun c hmem => bne_iff_ne.mpr fun e => hcomment (e ▸ hmem)
  have hsplit : renderInstr i = ('\t' :: (kindName i.kind ++ ['\t'])) ++ joinOperands (renderOperands i) := by
    rw [renderInstr_eq]
    simp
  rw [lineBody, htake, hsplit, trimEnd_append, hops.trimEnd]
  rw [hops.trimEnd, hc]
  exact List.cons_ne_nil c u

/-- The line of a well-formed instruction adds a statement of the same word, awaiting no label. -/
theorem addLine_renderInstr {i : Instr} (h : i.wf = true) (l : Listing) (line : Nat) :
    ∃ x, x.canonical = i.canonical ∧ l.addLine (renderInstr i) line =
      .ok { l with statements := l.statements ++ [⟨x, none, line, l.statements.length⟩] } := by
  obtain ⟨x, hx, hcanonical⟩ := parseOperands_renderOperands h
  have hops := isOperandList_renderOperands i
  obtain ⟨c, u, hc, hspace⟩ := hops.start
  have htokens : lineTokens (renderInstr i) = [[], kindName i.kind, joinOperands (renderOperands i)] := by
    rw [renderInstr_eq, hc, lineTokens_of_form (isOperand_kindName i.kind) hspace]
  have hne : (renderInstr i).isEmpty = false := by
    rw [renderInstr_eq]
    rfl
  have hlabel : lineLabel [] = .ok none := rfl
  refine ⟨x, hcanonical, ?_⟩
  rw [Listing.addLine, lineBody_renderInstr, hne, htokens]
  simp only [Bool.false_eq_true, if_false, hlabel, Listing.addLabel, Listing.addStatement, kindOfName_kindName,
    hops.operands, hx]

/-! ### The listing of a disassembly (R105, R106, R111) -/

theorem disassemble_cons (i : Instr) (is : List Instr) :
    disassemble (i :: is) = renderInstr i ++ '\n' :: disassemble is := by
  simp [disassemble]

theorem resolveAll_cons_of_noLabel (labels : List (Text × Nat)) (x : Instr) (line step : Nat) (sts : List Statement) :
    resolveAll labels (⟨x, none, line, step⟩ :: sts) = (resolveAll labels sts).map (encode x :: ·) := by
  rw [resolveAll]
  simp only [Statement.resolve]
  cases resolveAll labels sts <;> rfl

/-- The lines of a disassembly add statements that resolve, under any labels, to the words of its instructions. -/
theorem addLines_disassemble {is : List Instr} (h : ∀ i ∈ is, i.wf = true) (l : Listing) (line : Nat) :
    ∃ sts, l.addLines line (splitAt '\n' (disassemble is)) = .ok { l with statements := l.statements ++ sts } ∧
      ∀ labels, resolveAll labels sts = .ok (is.map encode) := by
  induction is generalizing l line with
  | nil => exact ⟨[], by rw [List.append_nil]; rfl, fun _ => rfl⟩
  | cons i is ih =>
    obtain ⟨hi, his⟩ := List.forall_mem_cons.mp h
    obtain ⟨x, hx, hadd⟩ := addLine_renderInstr hi l line
    obtain ⟨sts, hsts, hresolve⟩ :=
      ih his { l with statements := l.statements ++ [⟨x, none, line, l.statements.length⟩] } (line + 1)
    refine ⟨⟨x, none, line, l.statements.length⟩ :: sts, ?_, fun labels => ?_⟩
    · rw [disassemble_cons, splitAt_append_sep (newline_notMem_renderInstr i), Listing.addLines, hadd]
      exact hsts.trans (by rw [List.append_assoc]; rfl)
    · rw [resolveAll_cons_of_noLabel, hresolve, encode_eq_of_canonical_eq hx]
      rfl

/-- Reassembling a disassembly of well-formed instructions. -/
theorem assemble_disassemble {is : List Instr} (h : ∀ i ∈ is, i.wf = true) :
    assemble (disassemble is) = .ok (is.map encode) := by
  obtain ⟨sts, hsts, hresolve⟩ := addLines_disassemble h ⟨[], []⟩ 1
  rw [assemble, hsts]
  exact hresolve _

/-! ### The words the assembler answers (R105) -/

/-- Words that statements resolve to are words of the encoder. -/
theorem exists_map_encode_of_resolveAll {labels : List (Text × Nat)} {sts : List Statement} {ws : List Word}
    (h : resolveAll labels sts = .ok ws) : ∃ is : List Instr, ws = is.map encode := by
  induction sts generalizing ws with
  | nil => exact ⟨[], (Except.ok.inj h).symm⟩
  | cons st sts ih =>
    rw [resolveAll] at h
    cases hst : st.resolve labels with
    | error e => rw [hst] at h; cases h
    | ok i =>
      cases hsts : resolveAll labels sts with
      | error e => rw [hst, hsts] at h; cases h
      | ok vs =>
        rw [hst, hsts] at h
        obtain ⟨is, rfl⟩ := ih hsts
        exact ⟨i :: is, (Except.ok.inj h).symm⟩

theorem exists_map_encode_of_assemble {source : Text} {ws : List Word} (h : assemble source = .ok ws) :
    ∃ is : List Instr, ws = is.map encode := by
  rw [assemble] at h
  split at h
  · cases h
  · exact exists_map_encode_of_resolveAll h

/-- The words of instructions decode, in order, to what each reads back as. -/
theorem decodeAll_map_encode (n : Nat) (is : List Instr) :
    decodeAll n (is.map encode) = .ok (is.map Instr.canonical) := by
  rw [decodeAll_eq_ok_iff, List.forall₂_map_left_iff, List.forall₂_map_right_iff]
  exact List.forall₂_same.mpr fun i _ => decode_encode i

/-- Settles O57, by induction on the program (`addLines_disassemble`): each rendered line is read as an instruction of the same
word. Words the assembler answers are encoded ones, which decode to instructions of the same words. -/
theorem reassembleDisassembly : Obligations.ReassembleDisassembly := by
  unfold Obligations.ReassembleDisassembly
  refine ⟨fun is => assemble_disassemble, fun source ws h => ?_⟩
  obtain ⟨is, rfl⟩ := exists_map_encode_of_assemble h
  have hwf : ∀ i ∈ is.map Instr.canonical, i.wf = true :=
    List.forall_mem_map.mpr fun i _ => wf_of_decode (decode_encode i)
  refine ⟨is.map Instr.canonical, decodeAll_map_encode 0 is, ?_⟩
  rw [assemble_disassemble hwf, List.map_map]
  exact congrArg Except.ok (List.map_congr_left fun i _ => encode_canonical i)

end Sys2Proof.Machine
end

section
/-! The register-register ALU: the proofs of the statements of spec/40_alu_register.md (R131 to R135). The layers come first: the
word of a kind by mask, decoded in one step, and what the end of a register-writing instruction leaves as it was. -/

namespace Sys2Proof.Machine

/-! ### A word selected by mask and match (R78) -/

/-- A word that matches a kind's row decodes to that kind, its slots filled from its fields. -/
theorem decode_of_and_mask {w : Word} (k : Kind) (h : w &&& k.mask = k.pattern) : decode w = .ok (fillSlots k w) :=
  decode_of_assignedKind ((and_mask_eq_pattern_iff k w).mp h)

/-! ### The end of a register-writing instruction (R22, R26) -/

/-- The frame of an instruction that writes one register: the PC advances by one, data memory and the control fields stay. -/
theorem State.retire_frame (s : State) (rd : RegIdx) (v : Word) :
    (s.retire rd v).pc = s.pc + 1 ∧ SameMem s (s.retire rd v) ∧ SameControl s (s.retire rd v) :=
  ⟨s.retire_pc rd v, s.retire_memRead rd v, s.retire_insts rd v, s.retire_loaded rd v, s.retire_kill rd v,
    s.retire_killAge rd v, s.retire_status rd v⟩

/-! ### The five operations (R131 to R135) -/

section Operations

variable (rd rs rt : RegIdx) (s : State)

theorem exec_add : exec (.add rd rs rt) s = .next (s.retire rd (s.getReg rs + s.getReg rt)) := rfl

theorem exec_sub : exec (.sub rd rs rt) s = .next (s.retire rd (s.getReg rs - s.getReg rt)) := rfl

theorem exec_and : exec (.and rd rs rt) s = .next (s.retire rd (s.getReg rs &&& s.getReg rt)) := rfl

theorem exec_or : exec (.or rd rs rt) s = .next (s.retire rd (s.getReg rs ||| s.getReg rt)) := rfl

theorem exec_xor : exec (.xor rd rs rt) s = .next (s.retire rd (s.getReg rs ^^^ s.getReg rt)) := rfl

end Operations

/-- The exact difference of the signed values, modulo `2^32`, is the machine's difference. -/
theorem ofInt_toInt_sub_toInt (a b : Word) : BitVec.ofInt 32 (a.toInt - b.toInt) = a - b :=
  BitVec.eq_of_toInt_eq (by rw [BitVec.toInt_ofInt, BitVec.toInt_sub])

/-- Settles O10: the word is selected by mask, and the machine's sum is the exact one modulo `2^32`. -/
theorem addRule : Obligations.AddRule := by
  unfold Obligations.AddRule
  refine ⟨fun w => decode_of_and_mask .add, fun rd rs rt s => ?_⟩
  rw [← BitVec.add_def]
  exact ⟨_, exec_add rd rs rt s, s.regWritten_retire rd _, s.retire_frame rd _⟩

/-- Settles O11: the machine's difference, `rs` the minuend, is that of the signed values modulo `2^32`. -/
theorem subRule : Obligations.SubRule := by
  unfold Obligations.SubRule
  refine ⟨fun w => decode_of_and_mask .sub, fun rd rs rt s => ?_⟩
  rw [ofInt_toInt_sub_toInt]
  exact ⟨_, exec_sub rd rs rt s, s.regWritten_retire rd _, s.retire_frame rd _⟩

/-- Settles O12: bit `k` of the result is the conjunction of the sources' bits `k`. -/
theorem andRule : Obligations.AndRule := by
  unfold Obligations.AndRule
  refine ⟨fun w => decode_of_and_mask .and, fun rd rs rt s => ?_⟩
  exact ⟨_, _, exec_and rd rs rt s, s.regWritten_retire rd _, fun k _ => BitVec.getLsbD_and, s.retire_frame rd _⟩

/-- Settles O13: bit `k` of the result is the disjunction of the sources' bits `k`. -/
theorem orRule : Obligations.OrRule := by
  unfold Obligations.OrRule
  refine ⟨fun w => decode_of_and_mask .or, fun rd rs rt s => ?_⟩
  exact ⟨_, _, exec_or rd rs rt s, s.regWritten_retire rd _, fun k _ => BitVec.getLsbD_or, s.retire_frame rd _⟩

/-- Settles O14: bit `k` of the result is 1 exactly where the sources' bits `k` differ. -/
theorem xorRule : Obligations.XorRule := by
  unfold Obligations.XorRule
  refine ⟨fun w => decode_of_and_mask .xor, fun rd rs rt s => ?_⟩
  exact ⟨_, _, exec_xor rd rs rt s, s.regWritten_retire rd _, fun k _ => BitVec.getLsbD_xor, s.retire_frame rd _⟩

end Sys2Proof.Machine
end

section
/-! The shifts by immediate: the proofs of the statements of spec/41_shifts.md (R141 to R144). The layers come first: each shift
function as arithmetic and where the two right shifts part, then the instructions as writes of what they compute. -/

namespace Sys2Proof.Machine

/-! ### The shift functions (R13) -/

section Functions

variable (v : Word) (a : Nat)

/-- The left shift is the exact product with `2^a`, modulo `2^32`. -/
theorem shl_eq_ofNat : shl v a = BitVec.ofNat 32 (v.toNat * 2 ^ a) := by
  rw [← Nat.shiftLeft_eq]
  rfl

/-- The arithmetic right shift is the quotient of the signed value by `2^a`, rounded down. -/
theorem shrArith_eq_ofInt : shrArith v a = BitVec.ofInt 32 (v.toInt / 2 ^ a) := by
  rw [shrArith, BitVec.sshiftRight_eq, Int.shiftRight_eq_div_pow, Nat.cast_pow, Nat.cast_ofNat]

/-- The logical right shift is the quotient of the unsigned value by `2^a`, rounded down. -/
theorem shrLogical_eq_ofNat : shrLogical v a = BitVec.ofNat 32 (v.toNat / 2 ^ a) := by
  rw [← Nat.shiftRight_eq_div_pow, ← BitVec.toNat_ushiftRight, BitVec.ofNat_toNat, BitVec.setWidth_eq, shrLogical]

@[simp] theorem shl_zero : shl v 0 = v := BitVec.shiftLeft_zero v

@[simp] theorem shrArith_zero : shrArith v 0 = v := BitVec.sshiftRight_zero

@[simp] theorem shrLogical_zero : shrLogical v 0 = v := BitVec.ushiftRight_zero v

/-- The arithmetic right shift keeps bit 31. -/
theorem msb_shrArith : (shrArith v a).msb = v.msb := BitVec.msb_sshiftRight

variable {v a}

/-- The logical right shift by at least 1 clears bit 31. -/
theorem msb_shrLogical_of_pos (ha : 0 < a) : (shrLogical v a).msb = false := by
  rw [shrLogical, BitVec.msb_ushiftRight, decide_eq_true ha, Bool.not_true, Bool.false_and]

/-- With bit 31 clear the two right shifts agree. -/
theorem shrArith_eq_shrLogical_of_msb_false (h : v.msb = false) : shrArith v a = shrLogical v a :=
  BitVec.sshiftRight_eq_of_msb_false h

/-- The right shifts part exactly where bit 31 is set and moves: it is then bit 31 of the results that differs. -/
theorem shrArith_ne_shrLogical_iff : shrArith v a ≠ shrLogical v a ↔ v.msb = true ∧ 1 ≤ a := by
  constructor
  · intro hne
    constructor
    · by_contra hmsb
      exact hne (shrArith_eq_shrLogical_of_msb_false (Bool.not_eq_true _ ▸ hmsb))
    · by_contra ha
      obtain rfl : a = 0 := by omega
      exact hne ((shrArith_zero v).trans (shrLogical_zero v).symm)
  · rintro ⟨hmsb, ha⟩ heq
    have hbit := congrArg BitVec.msb heq
    rw [msb_shrArith, msb_shrLogical_of_pos ha, hmsb] at hbit
    cases hbit

end Functions

/-! ### The three instructions (R141 to R143) -/

section Instructions

variable (rd rt : RegIdx) (sa : ShAmt) (s : State)

theorem exec_sll : exec (.sll rd rt sa) s = .next (s.retire rd (shl (s.getReg rt) sa.toNat)) := rfl

theorem exec_srl : exec (.srl rd rt sa) s = .next (s.retire rd (shrArith (s.getReg rt) sa.toNat)) := rfl

theorem exec_sra : exec (.sra rd rt sa) s = .next (s.retire rd (shrLogical (s.getReg rt) sa.toNat)) := rfl

end Instructions

/-- A destination other than register 0 reads what the end of an instruction wrote to it. -/
theorem getReg_of_next_retire {s t : State} {rd : RegIdx} {v : Word} (hrd : rd ≠ 0)
    (h : (.next (s.retire rd v) : Host.Outcome State Fault Refusal) = .next t) : t.getReg rd = v := by
  obtain rfl : s.retire rd v = t := Host.Outcome.next.inj h
  exact (s.getReg_retire rd v rd).trans ((if_neg hrd).trans (if_pos rfl))

/-- Settles O15: the word is selected by mask, and the left shift is the product modulo `2^32`. -/
theorem sllRule : Obligations.SllRule := by
  unfold Obligations.SllRule
  refine ⟨fun w => decode_of_and_mask .sll, fun rd rt sa s => ?_⟩
  rw [← shl_eq_ofNat]
  exact ⟨_, exec_sll rd rt sa s, s.regWritten_retire rd _, s.retire_frame rd _⟩

/-- Settles O16: SRL is the arithmetic shift, the signed quotient rounded down. -/
theorem srlRule : Obligations.SrlRule := by
  unfold Obligations.SrlRule
  refine ⟨fun w => decode_of_and_mask .srl, fun rd rt sa s => ?_⟩
  rw [← shrArith_eq_ofInt]
  exact ⟨_, exec_srl rd rt sa s, s.regWritten_retire rd _, s.retire_frame rd _⟩

/-- Settles O17: SRA is the logical shift, the unsigned quotient rounded down. -/
theorem sraRule : Obligations.SraRule := by
  unfold Obligations.SraRule
  refine ⟨fun w => decode_of_and_mask .sra, fun rd rt sa s => ?_⟩
  rw [← shrLogical_eq_ofNat]
  exact ⟨_, exec_sra rd rt sa s, s.regWritten_retire rd _, s.retire_frame rd _⟩

/-- Settles O18: the results differ where the shift functions do (`shrArith_ne_shrLogical_iff`), and each of these is the
identity for amount 0. -/
theorem shiftLaws : Obligations.ShiftLaws := by
  unfold Obligations.ShiftLaws
  constructor
  · intro rd rt sa s t u hrd hsrl hsra
    rw [exec_srl] at hsrl
    rw [exec_sra] at hsra
    rw [getReg_of_next_retire hrd hsrl, getReg_of_next_retire hrd hsra, shrArith_ne_shrLogical_iff,
      BitVec.msb_eq_getLsbD_last]
  · rintro rd rt s t hrd (hsll | hsrl | hsra)
    · rw [exec_sll] at hsll
      exact (getReg_of_next_retire hrd hsll).trans (shl_zero _)
    · rw [exec_srl] at hsrl
      exact (getReg_of_next_retire hrd hsrl).trans (shrArith_zero _)
    · rw [exec_sra] at hsra
      exact (getReg_of_next_retire hrd hsra).trans (shrLogical_zero _)

end Sys2Proof.Machine
end

section
/-! The immediate ALU instructions: the proofs of the statements of spec/42_alu_immediate.md (R151 to R156). The layers come
first: the extended fields bit by bit and the two readings of the logical immediate made of them, then the instructions as writes
of what they compute. -/

namespace Sys2Proof.Machine

/-! ### The extensions bit by bit (R12) -/

section Extensions

variable (v : Word) {k : Nat}

/-- Sign extension keeps the low half. -/
theorem getLsbD_sext16_of_lt (hk : k < 16) : (sext16 v).getLsbD k = v.getLsbD k := by
  rw [sext16, BitVec.getLsbD_signExtend, if_pos hk, BitVec.getLsbD_extractLsb']
  simp [hk, hk.trans (by decide : 16 < 32)]

/-- Sign extension fills the high half with bit 15. -/
theorem getLsbD_sext16_of_le (hk : 16 ≤ k) (hk' : k < 32) : (sext16 v).getLsbD k = v.getLsbD 15 := by
  rw [sext16, BitVec.getLsbD_signExtend, if_neg (Nat.not_lt.mpr hk), BitVec.msb_eq_getLsbD_last,
    BitVec.getLsbD_extractLsb']
  simp [hk']

/-- Zero extension keeps the low half. -/
theorem getLsbD_zext16_of_lt (hk : k < 16) : (zext16 v).getLsbD k = v.getLsbD k := by
  rw [zext16, BitVec.getLsbD_setWidth, BitVec.getLsbD_extractLsb']
  simp [hk, hk.trans (by decide : 16 < 32)]

/-- Zero extension clears the high half. -/
theorem getLsbD_zext16_of_le (hk : 16 ≤ k) : (zext16 v).getLsbD k = false := by
  rw [zext16, BitVec.getLsbD_setWidth, BitVec.getLsbD_extractLsb', decide_eq_false (Nat.not_lt.mpr hk), Bool.false_and,
    Bool.and_false]

end Extensions

/-! ### The two readings of the logical immediate (R152) -/

@[simp] theorem logicImmUnder_slot (imm : Word) : logicImmUnder .slot imm = imm := rfl

@[simp] theorem logicImmUnder_zero (imm : Word) : logicImmUnder .zero imm = zext16 imm := rfl

/-- The operand of ANDI, ORI and XORI is the slot itself: the model's choice, log entry 4. -/
@[simp] theorem logicImm_eq (imm : Word) : logicImm imm = imm := rfl

section Readings

variable (w : Word) {k : Nat}

theorem getLsbD_logicImm_low (hk : k < 16) : (logicImmUnder .slot (fieldImm w)).getLsbD k = w.getLsbD k ∧
    (logicImmUnder .zero (fieldImm w)).getLsbD k = w.getLsbD k :=
  ⟨getLsbD_sext16_of_lt w hk, (getLsbD_zext16_of_lt (fieldImm w) hk).trans (getLsbD_sext16_of_lt w hk)⟩

theorem getLsbD_logicImm_high (hk : 16 ≤ k) (hk' : k < 32) :
    (logicImmUnder .slot (fieldImm w)).getLsbD k = w.getLsbD 15 ∧
    (logicImmUnder .zero (fieldImm w)).getLsbD k = false :=
  ⟨getLsbD_sext16_of_le w hk hk', getLsbD_zext16_of_le (fieldImm w) hk⟩

/-- The readings can differ in the high half only, where one copies bit 15 and the other is 0. -/
theorem logicImm_readings_agree_iff :
    logicImmUnder .slot (fieldImm w) = logicImmUnder .zero (fieldImm w) ↔ w.getLsbD 15 = false := by
  constructor
  · intro h
    obtain ⟨hslot, hzero⟩ := getLsbD_logicImm_high w (k := 16) (by decide) (by decide)
    rw [← hslot, h, hzero]
  · intro h
    apply BitVec.eq_of_getLsbD_eq
    intro k hk
    by_cases hlow : k < 16
    · obtain ⟨hslot, hzero⟩ := getLsbD_logicImm_low w hlow
      rw [hslot, hzero]
    · obtain ⟨hslot, hzero⟩ := getLsbD_logicImm_high w (Nat.not_lt.mp hlow) hk
      rw [hslot, hzero, h]

end Readings

/-- Settles O20: both readings bit by bit, and the bit 15 on which they agree or part (`logicImm_readings_agree_iff`). -/
theorem logicImmReadings : Obligations.LogicImmReadings := by
  unfold Obligations.LogicImmReadings
  exact ⟨logicImm_readings_agree_iff, fun w _ => getLsbD_logicImm_low w, fun w _ => getLsbD_logicImm_high w⟩

/-! ### The five instructions (R151, R153 to R156) -/

section Instructions

variable (rt rs : RegIdx) (imm : Word) (s : State)

theorem exec_addi : exec (.addi rt rs imm) s = .next (s.retire rt (s.getReg rs + imm)) := rfl

theorem exec_andi : exec (.andi rt rs imm) s = .next (s.retire rt (s.getReg rs &&& logicImm imm)) := rfl

theorem exec_ori : exec (.ori rt rs imm) s = .next (s.retire rt (s.getReg rs ||| logicImm imm)) := rfl

theorem exec_xori : exec (.xori rt rs imm) s = .next (s.retire rt (s.getReg rs ^^^ logicImm imm)) := rfl

theorem exec_lui : exec (.lui rt imm) s = .next (s.retire rt (shl imm 16)) := rfl

end Instructions

/-- Shifted by half a word, a value keeps its low half only. -/
theorem shl_half_eq_ofNat (v : Word) : shl v 16 = BitVec.ofNat 32 (v.toNat % 2 ^ 16 * 2 ^ 16) := by
  rw [shl_eq_ofNat, ← Nat.mul_mod_mul_right, ← Nat.pow_add]
  exact BitVec.eq_of_toNat_eq (by simp)

/-- The encoder puts 0 in the field `rs` of LUI, which is outside its shape. -/
theorem encode_lui_and_rs (rt : RegIdx) (imm : Word) : encode (.lui rt imm) &&& 0x03E00000#32 = 0 := by
  obtain ⟨-, hrs, -, -⟩ := fields_encodeI (k := .lui) rfl (Instr.lui rt imm).slots
  rw [← place_fieldRs, encode, Instr.kind, hrs]
  exact place_zero 21 5

/-- Settles O19: the word is selected by mask, and the machine's sum is the exact one modulo `2^32`. -/
theorem addiRule : Obligations.AddiRule := by
  unfold Obligations.AddiRule
  refine ⟨fun w => decode_of_and_mask .addi, fun rt rs imm s => ?_⟩
  rw [BitVec.ofInt_add, BitVec.ofInt_toInt, BitVec.ofInt_toInt]
  exact ⟨_, exec_addi rt rs imm s, s.regWritten_retire rt _, s.retire_frame rt _⟩

/-- Settles O21: bit `k` of the result is the conjunction of the bits `k` of the source and of the slot. -/
theorem andiRule : Obligations.AndiRule := by
  unfold Obligations.AndiRule
  refine ⟨fun w => decode_of_and_mask .andi, fun rt rs imm s => ?_⟩
  rw [exec_andi, logicImm_eq]
  exact ⟨_, _, rfl, s.regWritten_retire rt _, fun k _ => BitVec.getLsbD_and, s.retire_frame rt _⟩

/-- Settles O22: bit `k` of the result is the disjunction of the bits `k` of the source and of the slot. -/
theorem oriRule : Obligations.OriRule := by
  unfold Obligations.OriRule
  refine ⟨fun w => decode_of_and_mask .ori, fun rt rs imm s => ?_⟩
  rw [exec_ori, logicImm_eq]
  exact ⟨_, _, rfl, s.regWritten_retire rt _, fun k _ => BitVec.getLsbD_or, s.retire_frame rt _⟩

/-- Settles O23: bit `k` of the result is 1 exactly where the bits `k` of the source and of the slot differ. -/
theorem xoriRule : Obligations.XoriRule := by
  unfold Obligations.XoriRule
  refine ⟨fun w => decode_of_and_mask .xori, fun rt rs imm s => ?_⟩
  rw [exec_xori, logicImm_eq]
  exact ⟨_, _, rfl, s.regWritten_retire rt _, fun k _ => BitVec.getLsbD_xor, s.retire_frame rt _⟩

/-- Settles O24: the word is selected by mask, whatever its field `rs`, which the encoder clears; the shift drops what sign
extension adds (`shl_half_eq_ofNat`). -/
theorem luiRule : Obligations.LuiRule := by
  unfold Obligations.LuiRule
  refine ⟨fun w => decode_of_and_mask .lui, encode_lui_and_rs, fun rt imm s => ?_⟩
  rw [← shl_half_eq_ofNat]
  exact ⟨_, exec_lui rt imm s, s.regWritten_retire rt _, s.retire_frame rt _⟩

end Sys2Proof.Machine
end

section
/-! The load and the store: the proofs of the statements of spec/43_load_store.md (R160 to R162). The layers come first: the
effective address as an exact sum, then the two instructions, LW as a register write and SW as the write of one cell, whose frame is
said once. -/

namespace Sys2Proof.Machine

section

variable (rt rs : RegIdx) (imm : Word) (s : State)

/-! ### The effective address (R160) -/

/-- The machine's address is the exact signed sum of register and immediate, modulo `2^32`. -/
theorem State.effectiveAddress_eq_ofInt :
    s.effectiveAddress rs imm = BitVec.ofInt 32 ((s.getReg rs).toInt + imm.toInt) := by
  rw [State.effectiveAddress, BitVec.ofInt_add, BitVec.ofInt_toInt, BitVec.ofInt_toInt]

/-! ### The two instructions (R161, R162) -/

theorem exec_lw : exec (.lw rt rs imm) s = .next (s.retire rt (s.memRead (s.effectiveAddress rs imm))) := rfl

theorem exec_sw : exec (.sw rt rs imm) s =
    .next ((s.memWrite (s.effectiveAddress rs imm) (s.getReg rt)).setPc s.nextPc) := rfl

end

/-! ### What a store leaves as it was (R54, R162) -/

/-- A store replaces the cell it names and no other; where the PC goes does not matter. -/
theorem State.cellWritten_memWrite_setPc (s : State) (a v p : Word) : CellWritten s ((s.memWrite a v).setPc p) a v :=
  fun k => ((s.memWrite a v).setPc_memRead p k).trans (s.memRead_memWrite a v k)

/-- A store writes no register. -/
theorem State.sameRegs_memWrite_setPc (s : State) (a v p : Word) : SameRegs s ((s.memWrite a v).setPc p) :=
  fun r => ((s.memWrite a v).setPc_getReg p r).trans (s.memWrite_getReg a v r)

/-- Settles O25: the word is selected by mask, and the register is written with the cell keyed by the exact address modulo
`2^32`. -/
theorem lwRule : Obligations.LwRule := by
  unfold Obligations.LwRule
  refine ⟨fun w => decode_of_and_mask .lw, fun rt rs imm s => ?_⟩
  rw [← State.effectiveAddress_eq_ofInt]
  exact ⟨_, exec_lw rt rs imm s, s.regWritten_retire rt _, s.retire_frame rt _⟩

/-- Settles O26: the word is selected by mask, and the instruction is one store at the effective address. -/
theorem swRule : Obligations.SwRule := by
  unfold Obligations.SwRule
  refine ⟨fun w => decode_of_and_mask .sw, fun rt rs imm s => ?_⟩
  have hsw := exec_sw rt rs imm s
  exact ⟨_, hsw, s.effectiveAddress_eq_ofInt rs imm, s.cellWritten_memWrite_setPc _ _ _, State.setPc_pc _ _,
    s.sameRegs_memWrite_setPc _ _ _, exec_sameControl hsw⟩

end Sys2Proof.Machine
end

section
/-! The control transfers: the proofs of the statements of spec/44_control_transfer.md (R171 to R176). The layers come first:
what setting the PC leaves as it was, the comparison and the target of a branch, the target of a jump as arithmetic, the bits
that the encoder clears, then the instructions as changes of the PC. -/

namespace Sys2Proof.Machine

/-! ### Setting the PC alone (R26, R170) -/

/-- The frame of a control transfer that writes no register: registers, data memory and the control fields stay. -/
theorem State.setPc_frame (s : State) (p : Word) :
    SameRegs s (s.setPc p) ∧ SameMem s (s.setPc p) ∧ SameControl s (s.setPc p) :=
  ⟨s.setPc_getReg p, s.setPc_memRead p, s.setPc_insts p, s.setPc_loaded p, s.setPc_kill p, s.setPc_killAge p,
    s.setPc_status p⟩

/-! ### The comparison and the target of a branch (R171, R172) -/

theorem State.regsEqual_iff {s : State} {rs rt : RegIdx} : s.regsEqual rs rt = true ↔ s.getReg rs = s.getReg rt :=
  decide_eq_true_iff

theorem State.regsDiffer_iff {s : State} {rs rt : RegIdx} : s.regsDiffer rs rt = true ↔ s.getReg rs ≠ s.getReg rt :=
  decide_eq_true_iff

/-- The machine's target is the exact signed sum of `pc0`, 1 and the displacement, modulo `2^32`. -/
theorem State.branchTarget_eq_ofInt (s : State) (imm : Word) :
    s.branchTarget imm = BitVec.ofInt 32 (s.pc.toInt + 1 + imm.toInt) := by
  rw [BitVec.ofInt_add, BitVec.ofInt_add, BitVec.ofInt_toInt, BitVec.ofInt_toInt]
  rfl

/-! ### The target of a jump (R173) -/

theorem addrInRange_iff {addr : Word} : addrInRange addr = true ↔ -(2 ^ 25) ≤ addr.toInt ∧ addr.toInt < 2 ^ 25 := by
  rw [addrInRange, decide_eq_true_iff]
  omega

/-- An address from 0 on, read as unsigned, is below the same bound. -/
theorem toNat_lt_of_toInt_nonneg {addr : Word} (hpos : 0 ≤ addr.toInt) (hhi : addr.toInt < 2 ^ 25) :
    addr.toNat < 2 ^ 25 := by
  rw [BitVec.toInt_eq_toNat_cond] at hpos hhi
  split at hhi <;> omega

/-- The unsigned division takes the shift back where no bit is shifted out. -/
theorem jumpIndexUnder_unsigned_of_lt {addr : Word} (h : addr.toNat < 2 ^ 30) : jumpIndexUnder .unsigned addr = addr := by
  have hshift : (shl addr 2).toNat = addr.toNat * 2 ^ 2 := by
    rw [shl_eq_ofNat, BitVec.toNat_ofNat, Nat.mod_eq_of_lt (by omega)]
  apply BitVec.eq_of_toNat_eq
  change (shl addr 2).toNat / 2 ^ 2 = addr.toNat
  rw [hshift, Nat.mul_div_cancel _ (by decide)]

/-- The top four bits of a word as arithmetic. -/
theorem toNat_and_topBits (w : Word) : (w &&& 0xF0000000#32).toNat = w.toNat / 2 ^ 28 * 2 ^ 28 := by
  have hplace : place 28 (w.extractLsb' 28 4) = w &&& 0xF0000000#32 := place_extractLsb' w 28 4
  rw [← hplace, place, BitVec.toNat_shiftLeft, BitVec.toNat_setWidth, BitVec.extractLsb'_toNat, Nat.shiftLeft_eq,
    Nat.shiftRight_eq_div_pow]
  omega

/-- Below the top four bits, putting one word over another is a sum. -/
theorem toNat_and_topBits_or (w : Word) {v : Word} (h : v.toNat < 2 ^ 28) :
    ((w &&& 0xF0000000#32) ||| v).toNat = w.toNat / 2 ^ 28 * 2 ^ 28 + v.toNat := by
  rw [BitVec.toNat_or, toNat_and_topBits, Nat.mul_comm, Nat.two_pow_add_eq_or_of_lt h]

/-- Bits that are all set swallow whatever is put over them. -/
theorem and_or_eq_of_and_eq {v m : Word} (h : v &&& m = m) (w : Word) : (w &&& m) ||| v = v := by
  apply BitVec.eq_of_getLsbD_eq
  intro k _
  have hk : (v.getLsbD k && m.getLsbD k) = m.getLsbD k := by rw [← BitVec.getLsbD_and, h]
  rw [BitVec.getLsbD_or, BitVec.getLsbD_and]
  cases hv : v.getLsbD k with
  | true => exact Bool.or_true _
  | false => rw [← hk, hv, Bool.false_and, Bool.and_false, Bool.or_false]

/-- A negative address of the field's range has ones in its top four bits. -/
theorem and_topBits_of_neg {addr : Word} (hlo : -(2 ^ 25) ≤ addr.toInt) (hneg : addr.toInt < 0) :
    addr &&& 0xF0000000#32 = 0xF0000000#32 := by
  have hge : 2 ^ 32 - 2 ^ 25 ≤ addr.toNat := by
    rw [BitVec.toInt_eq_toNat_cond] at hlo hneg
    split at hneg <;> omega
  apply BitVec.eq_of_toNat_eq
  rw [toNat_and_topBits, BitVec.toNat_ofNat]
  have := addr.isLt
  omega

section Target

variable (s : State) {addr : Word}

/-- An address from 0 on lies under the top four bits of `pc0 + 1`. -/
theorem State.toNat_jumpTarget_of_nonneg (hpos : 0 ≤ addr.toInt) (hhi : addr.toInt < 2 ^ 25) :
    (s.jumpTarget addr).toNat = (s.pc + 1#32).toNat / 2 ^ 28 * 2 ^ 28 + addr.toNat := by
  rw [s.jumpTarget_of_inRange (addrInRange_iff.mpr ⟨by omega, hhi⟩)]
  exact toNat_and_topBits_or _ ((toNat_lt_of_toInt_nonneg hpos hhi).trans (by decide))

/-- A negative address is the target itself: the model's choice of the signed division, log entry 6. -/
theorem State.jumpTarget_of_neg (hlo : -(2 ^ 25) ≤ addr.toInt) (hneg : addr.toInt < 0) : s.jumpTarget addr = addr :=
  (s.jumpTarget_of_inRange (addrInRange_iff.mpr ⟨hlo, by omega⟩)).trans
    (and_or_eq_of_and_eq (and_topBits_of_neg hlo hneg) _)

end Target

/-- The two readings of the division agree on the addresses from 0 on. -/
theorem jumpIndex_readings_agree {addr : Word} (hpos : 0 ≤ addr.toInt) (hhi : addr.toInt < 2 ^ 25) :
    jumpIndexUnder .signed addr = jumpIndexUnder .unsigned addr := by
  have haddr : addr.toNat < 2 ^ 30 := (toNat_lt_of_toInt_nonneg hpos hhi).trans (by decide)
  rw [jumpIndexUnder_signed_of_inRange (addrInRange_iff.mpr ⟨by omega, hhi⟩), jumpIndexUnder_unsigned_of_lt haddr]

/-! ### The bits the encoder clears (R81, R88) -/

/-- The encoder puts 0 in the bits that the kind ignores: its word, decoded and encoded again without them, is the same. -/
theorem encode_and_ignored (i : Instr) : encode i &&& i.kind.ignored = 0 := by
  apply (and_not_eq_self_iff _ _).mp
  calc encode i &&& ~~~i.kind.ignored = encode (fillSlots i.kind (encode i)) :=
        (encode_fillSlots (assignedKind_encodeSlots _ _)).symm
    _ = encode i := by rw [fillSlots_encode, encode_canonical]

/-! ### The instructions (R171 to R176) -/

section Instructions

variable (rs rt : RegIdx) (imm addr : Word) (s : State)

theorem exec_beq : exec (.beq rs rt imm) s =
    .next (s.setPc (if s.regsEqual rs rt then s.branchTarget imm else s.nextPc)) := rfl

theorem exec_bne : exec (.bne rs rt imm) s =
    .next (s.setPc (if s.regsDiffer rs rt then s.branchTarget imm else s.nextPc)) := rfl

theorem exec_j : exec (.j addr) s = .next (s.setPc (s.jumpTarget addr)) := rfl

theorem exec_jal : exec (.jal addr) s = .next ((s.setReg linkRegister s.nextPc).setPc (s.jumpTarget addr)) := rfl

theorem exec_jr : exec (.jr rs) s = .next (s.setPc (s.getReg rs)) := rfl

theorem exec_jrFallback : exec (.jrFallback rs) s = .next (s.setPc (s.getReg rs)) := rfl

/-- A link writes its register and no other; where the PC goes does not matter. -/
theorem State.regWritten_setReg_setPc (v p : Word) : RegWritten s ((s.setReg rs v).setPc p) rs v :=
  fun r => ((s.setReg rs v).setPc_getReg p r).trans (s.getReg_setReg rs v r)

/-- A link leaves data memory as it was. -/
theorem State.sameMem_setReg_setPc (v p : Word) : SameMem s ((s.setReg rs v).setPc p) :=
  fun a => ((s.setReg rs v).setPc_memRead p a).trans (s.setReg_memRead rs v a)

end Instructions

/-- Settles O27: the word is selected by mask, and the two outcomes are those of the comparison for equality. -/
theorem beqRule : Obligations.BeqRule := by
  unfold Obligations.BeqRule
  refine ⟨fun w => decode_of_and_mask .beq, fun rs rt imm s => ⟨_, exec_beq rs rt imm s, fun heq => ?_, fun hne => ?_,
    s.setPc_frame _⟩⟩
  · exact (if_pos (State.regsEqual_iff.mpr heq)).trans (s.branchTarget_eq_ofInt imm)
  · exact if_neg fun htaken => hne (State.regsEqual_iff.mp htaken)

/-- Settles O28: the word is selected by mask, and the two outcomes are those of the comparison for difference. -/
theorem bneRule : Obligations.BneRule := by
  unfold Obligations.BneRule
  refine ⟨fun w => decode_of_and_mask .bne, fun rs rt imm s => ⟨_, exec_bne rs rt imm s, fun hne => ?_, fun heq => ?_,
    s.setPc_frame _⟩⟩
  · exact (if_pos (State.regsDiffer_iff.mpr hne)).trans (s.branchTarget_eq_ofInt imm)
  · exact if_neg fun htaken => State.regsDiffer_iff.mp htaken heq

/-- Settles O29: an address from 0 on is added under the top four bits of `pc0 + 1`, a negative one swallows them. -/
theorem jRule : Obligations.JRule := by
  unfold Obligations.JRule
  refine ⟨fun w => decode_of_and_mask .j, fun addr s => ⟨_, exec_j addr s, fun hpos hhi => ?_, fun hlo hneg => ?_,
    s.setPc_frame _⟩⟩
  · exact ⟨s.toNat_jumpTarget_of_nonneg hpos hhi, jumpIndex_readings_agree hpos hhi⟩
  · exact s.jumpTarget_of_neg hlo hneg

/-- Settles O30: JAL is J's change of the PC over the write of the link register. -/
theorem jalRule : Obligations.JalRule := by
  unfold Obligations.JalRule
  refine ⟨fun w => decode_of_and_mask .jal, fun addr s => ?_⟩
  have hjal := exec_jal addr s
  exact ⟨_, _, hjal, exec_j addr s, rfl, s.regWritten_setReg_setPc _ _ _, s.sameMem_setReg_setPc _ _ _,
    exec_sameControl hjal⟩

/-- Settles O31: the word is selected by mask, whatever its ignored bits, which the encoder clears; the PC is the register. -/
theorem jrRule : Obligations.JrRule := by
  unfold Obligations.JrRule
  refine ⟨fun w => decode_of_and_mask .jr, fun rs => encode_and_ignored (.jr rs), fun rs s => ?_⟩
  exact ⟨_, exec_jr rs s, s.setPc_pc _, s.setPc_frame _⟩

/-- Settles O32: the fallback and JR answer the same next state. -/
theorem jrFallbackRule : Obligations.JrFallbackRule := by
  unfold Obligations.JrFallbackRule
  intro rs s
  exact ⟨_, exec_jrFallback rs s, exec_jr rs s, s.setPc_pc _, s.setPc_frame _⟩

end Sys2Proof.Machine
end

section
/-! The exceptions: the proofs of the statements of spec/60_exceptions.md (R193, R194). First the completion of every instruction;
then, for the fault, what a faulted machine answers to a step and to the host, and where an instruction that only advances the PC
can lead. -/

namespace Sys2Proof.Machine

/-! ### Every instruction completes (R193) -/

/-- Settles O35: every arm of `exec` is the `.next` of one state, with no other outcome on any path. -/
theorem everyInstructionCompletes : Obligations.EveryInstructionCompletes := by
  unfold Obligations.EveryInstructionCompletes
  intro i s
  cases i <;> exact ⟨_, rfl⟩

/-! ### A faulted machine (R194, R200) -/

theorem step_of_faulted {s : State} {p : Word} (h : s.status = .faulted p) : step s = .fault (.simulation p) := by
  rw [step, sequencerStep, h]

theorem hostGetPc_of_faulted {s : State} {p : Word} (h : s.status = .faulted p) : hostGetPc s = .ok s.pc := by
  rw [hostGetPc, h]

/-! ### The PC after an instruction that only advances it (R26, R194) -/

/-- At a valid index of a program of fewer than `2^31` instructions the advance of the PC does not overflow. -/
theorem State.toInt_nextPc {s : State} (hlen : s.programLength < 2 ^ 31) (h0 : 0 ≤ s.pc.toInt)
    (h1 : s.pc.toInt < s.programLength) : s.nextPc.toInt = s.pc.toInt + 1 := by
  have hone : (1#32).toInt = 1 := by decide
  rw [State.nextPc, BitVec.toInt_add, hone]
  exact Int.bmod_eq_of_le (by omega) (by omega)

/-- An instruction that leads from a valid index to a PC out of range has not just advanced the PC, which leads to `N` at most. -/
theorem exec_pc_ne_nextPc_of_outOfRange {i : Instr} {s t : State} (hlen : s.programLength < 2 ^ 31) (h0 : 0 ≤ s.pc.toInt)
    (h1 : s.pc.toInt < s.programLength) (hx : exec i s = .next t) (hout : t.pcOutOfRange) : t.pc ≠ s.nextPc := by
  intro hpc
  have hnext : t.pc.toInt = s.pc.toInt + 1 := hpc ▸ State.toInt_nextPc hlen h0 h1
  obtain ⟨hinsts, -⟩ := exec_sameControl hx
  have hsame : t.programLength = s.programLength := congrArg List.length hinsts
  rcases hout with hneg | hpast <;> omega

/-- Settles O44. The boundary out of range raises the fault, which the next step answers. An instruction that leads to such a
boundary has not just advanced the PC (`exec_pc_ne_nextPc_of_outOfRange`), as every one but the six of R194 does. -/
theorem simulationFault : Obligations.SimulationFault := by
  unfold Obligations.SimulationFault
  refine ⟨fun s hr hk hout => ?_, fun i s t hlen h0 h1 hx hout => ?_⟩
  · have hst : s.raiseSimulation.status = .faulted s.pc := s.raiseSimulation_status
    exact ⟨s.raiseSimulation, step_of_outOfRange hr hk (State.boundary_outOfRange hout), rfl, step_of_faulted hst, rfl,
      hostGetPc_of_faulted hst⟩
  · have hne := exec_pc_ne_nextPc_of_outOfRange hlen h0 h1 hx hout
    cases i <;> injection hx with hx <;> subst hx
    case beq | bne | j | jal | jr | jrFallback => trivial
    all_goals exact hne rfl

end Sys2Proof.Machine
end

section
/-! The host: the proofs of the statements of spec/70_reset_and_hazards.md R222. First the layers: what a read and a store of the
host answer by the status; which instructions a load can install; and that each thing the host can do keeps the machine's
invariant. -/

namespace Sys2Proof.Machine

/-! ### The host's reads and its store, by the status (R64, R222) -/

section

variable (s : State) (a v : Word)

theorem hostGetMemory_eq_ite :
    hostGetMemory a s = if s.status = .running then .error .runInProgress else .ok (s.memRead a) := by
  cases hst : s.status <;> simp [hostGetMemory, hst]

theorem hostGetRegfile_eq_ite :
    hostGetRegfile s = if s.status = .running then .error .runInProgress
      else .ok (Vector.ofFn fun i => s.getReg (BitVec.ofFin i)) := by
  cases hst : s.status <;> simp [hostGetRegfile, hst]

theorem hostGetPc_eq_ite : hostGetPc s = if s.status = .running then .error .runInProgress else .ok s.pc := by
  cases hst : s.status <;> simp [hostGetPc, hst]

theorem hostSetMemory_eq_ite :
    hostSetMemory a v s = if s.status = .running then .refused .runInProgress else .next (s.memWrite a v) := by
  cases hst : s.status <;> simp [hostSetMemory, hst]

end

theorem hostRun_of_loaded {s : State} (hs : s.status = .idle) (hl : s.loaded = true) :
    hostRun s = .next { s with status := .running, pc := 0 } := by
  rw [hostRun, hs, hl]
  rfl

/-- A `run` that answers a next state has found the machine idle with a program loaded. -/
theorem idle_of_run {s t : State} (h : hostMove .run s = .next t) : s.status = .idle ∧ s.loaded = true := by
  rcases hostMove_cases h with ⟨-, -, _, -, -, ⟨_, hm, -⟩ | ⟨_, hm, -⟩⟩ | ⟨-, _, _, hm, -⟩ | ⟨hs, hl, -⟩ | ⟨hm, -⟩
  case inr.inr.inl => exact ⟨hs, hl⟩
  all_goals contradiction

/-- The register file that the host reads lists at `r` what register `r` reads. -/
theorem State.getElem?_ofFn_getReg (s : State) (r : RegIdx) :
    (Vector.ofFn fun i => s.getReg (BitVec.ofFin i))[r.toNat]? = some (s.getReg r) := by
  rw [Vector.getElem?_eq_getElem r.isLt, Vector.getElem_ofFn]
  rfl

/-- Settles O53: the store and the three reads are allowed by the status; `run` exactly in `Idle` with a program loaded
(`hostRun_of_loaded`, `idle_of_run`). -/
theorem hostOutsideRun : Obligations.HostOutsideRun := by
  unfold Obligations.HostOutsideRun
  refine ⟨fun s a v hs => ?_, fun s => hostRun_of_loaded, fun s t => idle_of_run, fun s hs => ?_⟩
  · refine ⟨s.memWrite a v, (hostSetMemory_eq_ite s a v).trans (if_neg hs), s.memRead_memWrite a v, ?_, s.memWrite_getReg a v,
      s.memWrite_pc a v, s.memWrite_insts a v, s.memWrite_loaded a v, s.memWrite_kill a v, s.memWrite_killAge a v,
      s.memWrite_status a v⟩
    rw [hostGetMemory_eq_ite, s.memWrite_status, if_neg hs, s.memRead_memWrite_self]
  · exact ⟨⟨_, (hostGetRegfile_eq_ite s).trans (if_neg hs), s.getElem?_ofFn_getReg⟩,
      (hostGetPc_eq_ite s).trans (if_neg hs), fun a => (hostGetMemory_eq_ite s a).trans (if_neg hs)⟩

/-- Settles O52: of the moves that `hostMove_cases` lists, every one but setting `kill` needs another status. -/
theorem hostDuringRun : Obligations.HostDuringRun := by
  unfold Obligations.HostDuringRun
  refine ⟨fun m s t hr h => ?_, fun s => rfl, fun s a hr => ?_⟩
  · rcases hostMove_cases h with ⟨hidle, -⟩ | ⟨hnot, -⟩ | ⟨hidle, -⟩ | hkill
    · exact absurd (hr.symm.trans hidle) (by decide)
    · exact absurd hr hnot
    · exact absurd (hr.symm.trans hidle) (by decide)
    · exact hkill
  · exact ⟨(hostGetMemory_eq_ite s a).trans (if_pos hr), (hostGetRegfile_eq_ite s).trans (if_pos hr),
      (hostGetPc_eq_ite s).trans (if_pos hr)⟩

/-! ### The instructions that a load can install (R33, R110) -/

/-- A list of words that decodes holds well-formed instructions only. -/
theorem wf_of_decodeAll {n : Nat} {ws : List Word} {is : List Instr} (h : decodeAll n ws = .ok is) :
    ∀ i ∈ is, i.wf = true := by
  have hall := decodeAll_eq_ok_iff.mp h
  intro i hi
  obtain ⟨k, hk, rfl⟩ := List.getElem_of_mem hi
  exact wf_of_decode (hall.get (hall.length_eq ▸ hk) hk)

/-- Everything the loader can have made of a list of lines that it reads: an empty line is skipped, any other gives one decoded
instruction. -/
theorem imageInstrs_cons_eq_ok {line : Nat} {t : Text} {ts : List Text} {is : List Instr}
    (h : imageInstrs line (t :: ts) = .ok is) :
    imageInstrs (line + 1) ts = .ok is ∨
      ∃ w i js, decode w = .ok i ∧ imageInstrs (line + 1) ts = .ok js ∧ is = i :: js := by
  rw [imageInstrs] at h
  split at h
  · exact .inl h
  · split at h
    · contradiction
    · split at h
      · contradiction
      · next w _ =>
        split at h
        · contradiction
        · next i hi =>
          split at h
          · contradiction
          · next js hjs => exact .inr ⟨w, i, js, hi, hjs, (Except.ok.inj h).symm⟩

/-- The loader's lines hold well-formed instructions only, by induction on the lines. -/
theorem wf_of_imageInstrs {line : Nat} {ts : List Text} {is : List Instr} (h : imageInstrs line ts = .ok is) :
    ∀ i ∈ is, i.wf = true := by
  induction ts generalizing line is with
  | nil =>
    cases h
    exact fun _ hi => absurd hi List.not_mem_nil
  | cons t ts ih =>
    rcases imageInstrs_cons_eq_ok h with hts | ⟨w, i, js, hw, hjs, rfl⟩
    · exact ih hts
    · exact List.forall_mem_cons.mpr ⟨wf_of_decode hw, ih hjs⟩

/-! ### The invariant through a move of the host (R33, R36, R54, R222) -/

namespace Inv

variable {s : State} (h : Inv s)
include h

/-- An idle machine may be given any program of well-formed instructions within the bound: `Idle` claims nothing of it. -/
theorem install {is : List Instr} (hidle : s.status = .idle) (hlen : is.length < 2 ^ 31) (hwf : ∀ i ∈ is, i.wf = true) :
    Inv { s with insts := is, loaded := true } where
  mem := h.mem
  length := hlen
  insts := hwf
  status := by
    unfold State.statusHolds
    rw [hidle]
    trivial
  killAge := h.killAge

/-- A store keeps memory canonical, and the status says nothing of memory. -/
theorem memWrite (a v : Word) : Inv (s.memWrite a v) := { h with mem := State.wf_memWrite a v h.mem }

/-- The status `Running` is true where a program is loaded. -/
theorem run (hl : s.loaded = true) : Inv { s with status := .running, pc := 0 } := { h with status := hl }

/-- Setting `kill` makes `Killed` true and leaves what the other statuses say. -/
theorem setKill : Inv { s with kill := true } where
  mem := h.mem
  length := h.length
  insts := h.insts
  status := by
    have hst := h.status
    unfold State.statusHolds at hst ⊢
    cases hs : s.status with
    | killed => rfl
    | idle | running | halted | faulted _ =>
      rw [hs] at hst
      exact hst
  killAge := h.killAge

end Inv

/-- Settles O49, one case per thing an allowed move does (`hostMove_cases`): a program installed, one cell stored, the start of
the run, and `kill` set. -/
theorem hostKeepsInv : Obligations.HostKeepsInv := by
  unfold Obligations.HostKeepsInv
  intro m s t hinv h
  rcases hostMove_cases h with ⟨hidle, -, is, hlen, rfl, hsource⟩ | ⟨-, a, v, -, rfl⟩ | ⟨-, hl, -, rfl⟩ | ⟨-, rfl⟩
  · have hwf : ∀ i ∈ is, i.wf = true := by
      rcases hsource with ⟨ws, -, hd⟩ | ⟨text, -, hd⟩
      · exact wf_of_decodeAll hd
      · exact wf_of_imageInstrs hd
    exact hinv.install hidle hlen hwf
  · exact hinv.memWrite a v
  · exact hinv.run hl
  · exact hinv.setKill

end Sys2Proof.Machine
end

section
/-! The values of reset that are the model's choice: the proof of the statement of assumption log entries 1, 2 and 3. First what
every register reads at reset. -/

namespace Sys2Proof.Machine

/-- A register other than 0 reads what is stored (R21). -/
theorem State.getReg_of_ne_zero (s : State) {r : RegIdx} (hr : r ≠ 0) : s.getReg r = s.regs[r.toNat] := if_neg hr

/-- What reset stores in every slot is REG_RESET, slot 0 included. -/
theorem State.reset_regs (r : RegIdx) : State.reset.regs[r.toNat] = Config.regReset r := Vector.getElem_ofFn _

/-- Register 0 reads 0 in every state, and the others read REG_RESET. -/
theorem State.reset_getReg (r : RegIdx) : State.reset.getReg r = 0 := by
  by_cases hr : r = 0
  · rw [hr]
    exact State.reset.getReg_zero
  · rw [State.reset.getReg_of_ne_zero hr, State.reset_regs]
    rfl

/-- Settles O51: the registers by `State.reset_getReg`, and `kill` and the PC are the values that reset writes. -/
theorem resetChoices : Obligations.ResetChoices := by
  unfold Obligations.ResetChoices
  exact ⟨State.reset_getReg, rfl, rfl⟩

end Sys2Proof.Machine
end
